-- ==== Sys2Proof/Word.lean ====
section
/-! DEFINITION. The word and byte types of the block (spec/00_scope.md R9: a register is 32 bits, a byte is 8 bits). -/

namespace Sys2Proof

/-- A 32-bit register value or command word; bit 0 is the least significant (R9). -/
abbrev Word := BitVec 32

/-- A byte; bit 7 is its most significant and first bit (R9). -/
abbrev Byte := BitVec 8

end Sys2Proof
end

