-- ==== Sys2Proof/Syntax.lean ====
section
/-! DEFINITION. The five commands (spec/30_encoding.md R92), the host's bus accesses (spec/20_memory.md R62 to R66) and
the lines of the host script (spec/30_encoding.md R97 to R99). -/

namespace Sys2Proof

/-- The commands, one constructor for each row of the opcode map R92. The operands of CONFIG are the two byte fields of
the word (R91); a value outside 0 to 255 has no encoding and no term here. -/
inductive Instr
  /-- `CONFIG`: ARG0 = ALG, ARG1 = CODELEN. -/
  | config (alg codelen : Byte)
  | b32dec
  | b32enc
  | otp
  | clear
deriving DecidableEq, Repr

/-- The word registers of the window (spec/10_state.md R23). -/
inductive Reg
  | cmd | status | cfg | ilen | olen | tstepLo | tstepHi
deriving DecidableEq, Repr

/-- One host access to the window, at a byte offset from BASE (R11, R62 to R66). -/
inductive Access
  /-- `MemRead(off, 4)` -/
  | readWord (off : Nat)
  /-- `MemWrite(off, 4, v)` -/
  | writeWord (off : Nat) (v : Word)
  /-- `MemRead(off, 1)` -/
  | readByte (off : Nat)
  /-- `MemWrite(off, 1, v)` -/
  | writeByte (off : Nat) (v : Byte)
  /-- An access of another width (`width` bytes, neither 1 nor 4): a bus error whatever its offset, direction and value. -/
  | otherWidth (off width : Nat)
deriving DecidableEq, Repr

/-- One line of the host script (R97, R98, R99). Operands are the plain numbers of the script's text. -/
inductive ScriptLine
  /-- `WR <reg>, <value>` -/
  | wr (r : Reg) (v : Word)
  /-- `RD <reg>` -/
  | rd (r : Reg)
  /-- `WRB IBUF[<i>], <byte>` -/
  | wrb (i : Nat) (v : Byte)
  /-- `RDB IBUF[<i>]` -/
  | rdbIbuf (i : Nat)
  /-- `RDB OBUF[<i>]` -/
  | rdbObuf (i : Nat)
  /-- `CONFIG <alg>, <codelen>` -/
  | config (alg codelen : Nat)
  | b32dec
  | b32enc
  | otp
  | clear
  /-- `LOAD "<text>"` and `LOADB <b0> <b1> ...`: both write bytes and their number. -/
  | load (bytes : List Byte)
  /-- `TSTEP <value>` -/
  | tstep (value : Nat)
  /-- `WAIT`, reading STATUS with BUSY = 1 at most `polls` times before the engine moves (log 11). -/
  | wait (polls : Nat)
  /-- `READOUT` -/
  | readout
deriving DecidableEq, Repr

end Sys2Proof
end

