-- ==== Sys2Proof/Decode.lean ====
section
/-! DEFINITION. Command words: the fields of spec/30_encoding.md R90, the opcode map R92, the decoder (total, R95),
the reasons a word is illegal (R94), and the encoder. -/

namespace Sys2Proof

/-- The four byte-wide fields of a command word (R90). -/
def opcField (w : Word) : Byte := w.extractLsb' 0 8
def arg0Field (w : Word) : Byte := w.extractLsb' 8 8
def arg1Field (w : Word) : Byte := w.extractLsb' 16 8
def rsvField (w : Word) : Byte := w.extractLsb' 24 8

/-- A row of the opcode map R92: a word `w` selects the row where `w AND mask = pattern`. -/
structure OpRow where
  mnemonic : String
  pattern : Word
  mask : Word
  /-- The instruction of a word that selects the row: its operands are the argument fields (R91). -/
  read : Word → Instr

/-- The opcode map R92, in the table's order. -/
def opcodeMap : List OpRow :=
  [ { mnemonic := "CONFIG", pattern := 0x00000001, mask := 0xFF0000FF,
      read := fun w => .config (arg0Field w) (arg1Field w) },
    { mnemonic := "B32DEC", pattern := 0x00000002, mask := 0xFFFFFFFF, read := fun _ => .b32dec },
    { mnemonic := "B32ENC", pattern := 0x00000003, mask := 0xFFFFFFFF, read := fun _ => .b32enc },
    { mnemonic := "OTP", pattern := 0x00000004, mask := 0xFFFFFFFF, read := fun _ => .otp },
    { mnemonic := "CLEAR", pattern := 0x00000005, mask := 0xFFFFFFFF, read := fun _ => .clear } ]

/-- Whether a word selects a row (R92). -/
def OpRow.selects (r : OpRow) (w : Word) : Bool := w &&& r.mask == r.pattern

/-- Why a word is illegal: the three cases of R94. The block records none of them (R254), so where two hold the order
of naming them is the model's own (log 10). -/
inductive IllegalWord
  /-- `OPC = 0x00` or `OPC ≥ 0x06` -/
  | opcode
  /-- `RSV ≠ 0x00` -/
  | reserved
  /-- a format-N word with `ARG0 ≠ 0` or `ARG1 ≠ 0` -/
  | arguments
deriving DecidableEq, Repr

def illegalReason (w : Word) : IllegalWord :=
  if opcField w = 0 ∨ 6 ≤ (opcField w).toNat then .opcode
  else if rsvField w ≠ 0 then .reserved
  else .arguments

/-- The decoder: the row the word selects, or the reason it selects none (R92, R94, R95). -/
def decode (w : Word) : Except IllegalWord Instr :=
  match opcodeMap.find? (fun r => r.selects w) with
  | some r => .ok (r.read w)
  | none => .error (illegalReason w)

/-- The operation code of a command (R92). -/
def Instr.opc : Instr → Byte
  | .config _ _ => 0x01
  | .b32dec => 0x02
  | .b32enc => 0x03
  | .otp => 0x04
  | .clear => 0x05

/-- The two argument fields of a command (R90, R91): format N has both zero. -/
def Instr.arg0 : Instr → Byte
  | .config alg _ => alg
  | .b32dec => 0
  | .b32enc => 0
  | .otp => 0
  | .clear => 0

def Instr.arg1 : Instr → Byte
  | .config _ codelen => codelen
  | .b32dec => 0
  | .b32enc => 0
  | .otp => 0
  | .clear => 0

/-- The encoder: RSV = 0x00, then ARG1, ARG0 and OPC downwards (R90). -/
def encode (i : Instr) : Word := (0 : Byte) ++ i.arg1 ++ i.arg0 ++ i.opc

/-- The command word whose bits are `w`, of which the table gives `nbits`; the bits above them are 0. -/
def tableWord (nbits w : Nat) : Word := BitVec.ofNat 32 (w % 2 ^ nbits)

/-- What the decoder reads from a table word; a command is exactly one 32-bit word (R90), so nothing longer is one. -/
def decodeTableWord (nbits w : Nat) : Option Instr :=
  if nbits ≤ 32 then
    match decode (tableWord nbits w) with
    | .ok i => some i
    | .error _ => none
  else none

end Sys2Proof
end

