-- ==== Sys2Proof/Config.lean ====
section
/-! DEFINITION. What is fixed for one block, spec/00_scope.md R8 (implementation parameters), the open parameter BASE
(spec/92_eei_decisions.md), and the free values of spec/20_memory.md R69. -/

namespace Sys2Proof.Config

/-- `IBUF_BYTES` (R8). -/
def ibufBytes : Nat := 256

/-- `OBUF_BYTES` (R8). -/
def obufBytes : Nat := 416

/-- Size of the register window (spec/10_state.md R23). -/
def windowBytes : Nat := 0x400

/-- `CODELEN_MIN` (R8). -/
def codeLenMin : Nat := 6

/-- `STEP_SECONDS` (R8); used by the host procedures only. -/
def stepSeconds : Nat := 30

/-- `HASH_BLOCK_BYTES` (R8). -/
def hashBlockBytes : Nat := 64

/-- `SECRET_LEN_MIN` and `SECRET_LEN_MAX` (R8); used by the host procedures only. -/
def secretLenMin : Nat := 16
def secretLenMax : Nat := 128

/-- The open parameter `BASE` counted in windows: it has no value here, so nothing can depend on one (log 4). -/
opaque baseIndex : Nat

/-- `BASE`, the byte address of the window: a multiple of 0x400 and otherwise open (R23, R70; log 4). -/
def base : Nat := windowBytes * baseIndex

/-- The window offset of a bus address, or none where the address is outside the block's window (R23). -/
def offsetOf (address : Nat) : Option Nat :=
  if base ≤ address ∧ address < base + windowBytes then some (address - base) else none

/-- FREE VALUE: what the `n`-th read returns as `OLEN.LEN` if it reads OLEN while BUSY = 1 (R69, U1; log 3). -/
opaque freeOlen : Nat → BitVec 16

/-- FREE VALUE: what the `n`-th read returns if it reads an OBUF byte while BUSY = 1 (R69, U1; log 3). -/
opaque freeByte : Nat → Byte

end Sys2Proof.Config
end

