-- ==== Sys2Proof/Machine/State.lean ====
section
/-! DEFINITION. The state of the block (spec/10_state.md R20 to R47), the environment the model adds to it (schedule,
responses, draws), the state after reset, and the two ways a step can stop. -/

namespace Sys2Proof.Machine

/-- A buffer: (index, byte) cells in one canonical form (`Memory.wf` in Machine/Ops.lean); a byte that is not listed
reads 0x00, its reset value (spec/10_state.md R42, R43, R47; log 8). -/
abbrev Memory := List Host.Cell

/-- The closed enumeration of supported keyed-hash functions (spec/30_encoding.md R93, spec/41_hash_hmac.md R140). -/
inductive HashAlg
  | sha1
  | sha256
deriving DecidableEq, Repr

/-- The errors a command can raise (spec/60_exceptions.md R254). -/
inductive ErrorName
  | configurationError
  | decodeFailure
  | illegalCommand
  | lengthError
  | notConfigured
  | configLocked
deriving DecidableEq, Repr

/-- STATUS, field by field (R25). Its reserved bits are not stored (R39). -/
structure Status where
  busy : Bool
  done : Bool
  err : Bool
  errcode : BitVec 4
  cfgv : Bool
deriving DecidableEq, Repr

/-- CFG, field by field (R32). ALG is held as the algorithm it names (log 9). -/
structure Cfg where
  alg : HashAlg
  codelen : BitVec 8
deriving DecidableEq, Repr

/-- One move of one of the block's agents (spec/00_scope.md R14; log 1). -/
inductive Event
  /-- the host performs a bus access -/
  | access (a : Access)
  /-- the engine takes its enabled step, if it has one -/
  | engine
  /-- the RESET event (spec/70_reset_and_hazards.md R280) -/
  | reset
  /-- the host polls STATUS until BUSY = 0, at most `polls` times before the engine moves (spec/30_encoding.md R99; log 11) -/
  | wait (polls : Nat)
  /-- the host reads OLEN and then that many OBUF bytes (R99) -/
  | readout
deriving DecidableEq, Repr

/-- What one host read returned, with the offset it read (spec/20_memory.md R62, R64). -/
inductive Response
  | word (off : Nat) (v : Word)
  | byte (off : Nat) (v : Byte)
deriving DecidableEq, Repr

structure State where
  /-- STATUS (R25 to R31) -/
  status : Status
  /-- CFG (R32 to R34) -/
  cfg : Cfg
  /-- ILEN.LEN (R35) -/
  ilen : BitVec 16
  /-- OLEN.LEN (R36) -/
  olen : BitVec 16
  /-- TSTEP_LO (R37) -/
  tstepLo : Word
  /-- TSTEP_HI (R38) -/
  tstepHi : Word
  /-- LCMD, the latched command (R40) -/
  lcmd : Word
  /-- IBUF (R42) -/
  ibuf : Memory
  /-- OBUF (R43) -/
  obuf : Memory
  /-- the model's own: the agents' next moves, in order (log 1) -/
  schedule : List Event
  /-- the model's own: what the host's reads returned, oldest first (log 2) -/
  responses : List Response
  /-- the model's own: how many reads have been answered, the index of the next free value (log 3) -/
  draws : Nat
deriving DecidableEq, Repr

/-- The state after reset: every value R47 gives, and an empty environment (log 1, 2 and 3). -/
def State.reset : State where
  status := { busy := false, done := false, err := false, errcode := 0, cfgv := false }
  cfg := { alg := .sha1, codelen := 0 }
  ilen := 0
  olen := 0
  tstepLo := 0
  tstepHi := 0
  lcmd := 0
  ibuf := []
  obuf := []
  schedule := []
  responses := []
  draws := 0

/-- The block gives a step no way to end in a machine fault: an error is the outcome of a command, reported in STATUS
(spec/60_exceptions.md R256, R259). Safe: there is nothing to raise. -/
inductive Fault
deriving DecidableEq, Repr

inductive Refusal
  /-- Raised by `exec` for an instruction that has no meaning yet; safe. No arm of this model raises it. -/
  | notModelled (mnemonic : String)
  /-- Raised by a host access that is a bus error: "A model should treat a host step that would cause a bus error as
  refused (the host has no such step)" (spec/20_memory.md R66; log 5). Safe: the block's state is unchanged there. -/
  | busError (off width : Nat)
deriving DecidableEq, Repr

end Sys2Proof.Machine
end

