-- ==== Sys2Proof/Machine/Flags.lean ====
section
/-! DEFINITION. The status flags: what acceptance and completion write to STATUS, the error codes, and the register
values STATUS and CFG read as (spec/10_state.md R25 to R32, spec/60_exceptions.md R254, R256). -/

namespace Sys2Proof.Machine

/-- The code of an error (R254). -/
def ErrorName.code : ErrorName → BitVec 4
  | .configurationError => 1
  | .decodeFailure => 2
  | .illegalCommand => 3
  | .lengthError => 4
  | .notConfigured => 5
  | .configLocked => 6

/-- STATUS at acceptance: BUSY set, DONE, ERR and ERRCODE cleared, CFGV kept (spec/43_control.md R210). -/
def Status.accepted (st : Status) : Status :=
  { st with busy := true, done := false, err := false, errcode := 0 }

/-- STATUS at completion without an error (R256). -/
def Status.succeeded (st : Status) : Status :=
  { st with busy := false, done := true, err := false, errcode := 0 }

/-- STATUS at completion with an error (R256). -/
def Status.failed (st : Status) (e : ErrorName) : Status :=
  { st with busy := false, done := true, err := true, errcode := e.code }

/-- A flag as a 32-bit word with the flag at bit `n`. -/
def bitAt (n : Nat) (b : Bool) : Word := BitVec.ofNat 32 (b.toNat * 2 ^ n)

/-- The 32-bit value of STATUS (R25): BUSY 0, DONE 1, ERR 2, ERRCODE 11:8, CFGV 16, the rest 0. -/
def Status.word (st : Status) : Word :=
  bitAt 0 st.busy ||| bitAt 1 st.done ||| bitAt 2 st.err ||| (st.errcode.setWidth 32 <<< 8) ||| bitAt 16 st.cfgv

/-- The algorithm codes of spec/30_encoding.md R93. -/
def HashAlg.code : HashAlg → BitVec 4
  | .sha1 => 0
  | .sha256 => 1

/-- The algorithm an ALG argument selects, or none where it is unsupported (R93). -/
def HashAlg.ofCode (a : Byte) : Option HashAlg :=
  if a = 0 then some .sha1 else if a = 1 then some .sha256 else none

/-- The 32-bit value of CFG (R32): ALG 3:0, CODELEN 15:8, the rest 0. -/
def Cfg.word (c : Cfg) : Word := c.alg.code.setWidth 32 ||| (c.codelen.setWidth 32 <<< 8)

end Sys2Proof.Machine
end

