-- ==== Sys2Proof/Machine/Ops.lean ====
section
/-! DEFINITION. The named operations over buffers and registers: reading and writing a buffer, accepting a command
(spec/43_control.md R210), the common clearing (R213), delivering a result, and the two ends of a completion step,
raising an error among them (spec/60_exceptions.md R256). There is no return from an error: the next accepted command
clears it (R260). -/

namespace Sys2Proof.Machine

/-- The canonical form: indices strictly rising, no cell equal to what an unlisted byte reads as. -/
abbrev Memory.wf (m : Memory) : Prop :=
  m.Pairwise (fun c d => c.1 < d.1) ∧ ∀ c ∈ m, c.2 ≠ 0

/-- Every listed index lies inside a buffer of `n` bytes. -/
abbrev Memory.within (n : Nat) (m : Memory) : Prop := ∀ c ∈ m, c.1 < n

/-- Byte `a` of a buffer; 0x00 where nothing is listed (R42, R43, R47). -/
def Memory.read : Memory → Nat → Byte
  | [], _ => 0
  | (k, v) :: m, a => if k = a then v else Memory.read m a

/-- Byte `a` becomes `v`; the canonical form is kept (writing 0x00 removes the cell). -/
def Memory.write : Memory → Nat → Byte → Memory
  | [], a, v => if v = 0 then [] else [(a, v)]
  | (k, w) :: m, a, v =>
    if a < k then (if v = 0 then (k, w) :: m else (a, v) :: (k, w) :: m)
    else if a = k then (if v = 0 then m else (a, v) :: m)
    else (k, w) :: Memory.write m a v

/-- `buffer[0 .. n)` as a byte string (spec/00_scope.md R11). -/
def Memory.readBytes (m : Memory) (n : Nat) : List Byte := (List.range n).map m.read

/-- `buffer[i .. i + len(s)) <- s` (R11). -/
def Memory.writeBytes : Memory → Nat → List Byte → Memory
  | m, _, [] => m
  | m, i, b :: s => Memory.writeBytes (m.write i b) (i + 1) s

/-- Acceptance of a command word (R210): the word is latched and BUSY set; nothing else changes. -/
def State.accept (w : Word) (s : State) : State := { s with lcmd := w, status := s.status.accepted }

/-- Common clearing, the first action of every completion step (R213). -/
def State.commonClear (s : State) : State := { s with obuf := [], olen := 0 }

/-- `OBUF[0 .. n) <- bytes ; OLEN.LEN <- n` (R213). -/
def State.deliver (bytes : List Byte) (s : State) : State :=
  { s with obuf := Memory.writeBytes s.obuf 0 bytes, olen := BitVec.ofNat 16 bytes.length }

/-- Raising an error: the completion step ends here with the error's code, and no other state changes (R256). -/
def State.raise (e : ErrorName) (s : State) : State := { s with status := s.status.failed e }

/-- The end of a completion step that raises nothing (R256). -/
def State.finish (s : State) : State := { s with status := s.status.succeeded }

end Sys2Proof.Machine
end

