-- ==== Sys2Proof/Machine/Bus.lean ====
section
/-! DEFINITION. The host's accesses to the window (spec/20_memory.md R62 to R69, spec/10_state.md R23, R39) and the
RESET event (spec/70_reset_and_hazards.md R280). -/

namespace Sys2Proof.Machine

/-- The offset of a register (R23). -/
def regOffset : Reg → Nat
  | .cmd => 0x000
  | .status => 0x004
  | .cfg => 0x008
  | .ilen => 0x00C
  | .olen => 0x010
  | .tstepLo => 0x014
  | .tstepHi => 0x018

/-- The register at an offset; none for a reserved one (R23, R39). -/
def regAt (off : Nat) : Option Reg :=
  if off = 0x000 then some .cmd
  else if off = 0x004 then some .status
  else if off = 0x008 then some .cfg
  else if off = 0x00C then some .ilen
  else if off = 0x010 then some .olen
  else if off = 0x014 then some .tstepLo
  else if off = 0x018 then some .tstepHi
  else none

/-- What a read of a register returns (R24, R25, R32, R35 to R38): OLEN is unspecified while BUSY = 1 (R69). -/
def State.regValue (s : State) : Reg → Word
  | .cmd => 0
  | .status => s.status.word
  | .cfg => s.cfg.word
  | .ilen => s.ilen.setWidth 32
  | .olen => (if s.status.busy then Config.freeOlen s.draws else s.olen).setWidth 32
  | .tstepLo => s.tstepLo
  | .tstepHi => s.tstepHi

/-- The value of `MemRead(off, 4)`; a reserved offset reads 0 (R62). -/
def State.wordAt (s : State) (off : Nat) : Word :=
  match regAt off with
  | some r => s.regValue r
  | none => 0

/-- The value of `MemRead(off, 1)` (R64): IBUF, OBUF (unspecified while BUSY = 1, R69), or the reserved tail. -/
def State.byteAt (s : State) (off : Nat) : Byte :=
  if off < 0x200 then s.ibuf.read (off - 0x100)
  else if off < 0x3A0 then (if s.status.busy then Config.freeByte s.draws else s.obuf.read (off - 0x200))
  else 0

/-- A read's value goes to the host; no state of the block changes (R62, R64). -/
def State.respond (r : Response) (s : State) : State :=
  { s with responses := s.responses ++ [r], draws := s.draws + 1 }

/-- What a write to a register does while BUSY = 0 (R63). -/
def State.writeReg (s : State) (v : Word) : Reg → State
  | .cmd => s.accept v
  | .ilen => { s with ilen := v.setWidth 16 }
  | .tstepLo => { s with tstepLo := v }
  | .tstepHi => { s with tstepHi := v }
  | .status => s
  | .cfg => s
  | .olen => s

/-- `MemWrite(off, 4, v)`: ignored while BUSY = 1 (R68) and at reserved offsets (R63). -/
def State.writeWord (s : State) (off : Nat) (v : Word) : State :=
  if s.status.busy then s
  else
    match regAt off with
    | some r => s.writeReg v r
    | none => s

/-- `MemWrite(off, 1, v)`: ignored while BUSY = 1 (R68), at OBUF and at the reserved tail (R65). -/
def State.writeByte (s : State) (off : Nat) (v : Byte) : State :=
  if s.status.busy then s
  else if off < 0x200 then { s with ibuf := s.ibuf.write (off - 0x100) v }
  else s

/-- A register access is 4 bytes wide, aligned, below 0x100 (R62, R63). DESIGN CHOICE (log 21): R23's table gives the
reserved tail 0x3A0 to 0x3FF as "RAZ/WI, byte or word", while R66 makes every 4-byte access at 0x100 or above a bus
error; the model follows R66, so a word access to the tail is refused. Safe. -/
def wordAccess (off : Nat) : Bool := off % 4 == 0 && decide (off < 0x100)

/-- A buffer access is 1 byte wide, from 0x100 to the end of the window (R64, R65). -/
def byteAccess (off : Nat) : Bool := decide (0x100 ≤ off) && decide (off < Config.windowBytes)

/-- One bus access of the host; a bus error is refused (R66). -/
def hostAccess (a : Access) (s : State) : Host.Outcome State Fault Refusal :=
  match a with
  | .readWord off =>
    if wordAccess off then .next (s.respond (.word off (s.wordAt off))) else .refused (.busError off 4)
  | .writeWord off v => if wordAccess off then .next (s.writeWord off v) else .refused (.busError off 4)
  | .readByte off =>
    if byteAccess off then .next (s.respond (.byte off (s.byteAt off))) else .refused (.busError off 1)
  | .writeByte off v => if byteAccess off then .next (s.writeByte off v) else .refused (.busError off 1)
  | .otherWidth off width => .refused (.busError off width)

/-- The RESET event: every piece of the block's state takes its reset value, a pending command is discarded (R280,
R281). What the host has still to do and has already read is the host's and stays (log 15). -/
def State.resetEvent (s : State) : State :=
  { State.reset with schedule := s.schedule, responses := s.responses, draws := s.draws }

end Sys2Proof.Machine
end

