-- ==== Sys2Proof/Machine/Bits.lean ====
section
/-! DEFINITION. Arithmetic, byte-order and bit-string primitives (spec/00_scope.md R9, R10). `+32`, `AND`, `OR`, `XOR`,
`NOT32` and `SHR` are the bit-vector operations `+`, `&&&`, `|||`, `^^^`, `~~~` and `>>>` on `Word`. -/

namespace Sys2Proof.Machine

/-- `ROTL32(x, n)`, for 0 < n < 32 (R10). -/
def rotl32 (x : Word) (n : Nat) : Word := (x <<< n) ||| (x >>> (32 - n))

/-- `ROTR32(x, n) = ROTL32(x, 32 - n)` (R10). -/
def rotr32 (x : Word) (n : Nat) : Word := rotl32 x (32 - n)

/-- The number a byte string denotes with its first byte most significant (R10, big-endian). -/
def beNat (b : List Byte) : Nat := b.foldl (fun acc x => acc * 256 + x.toNat) 0

/-- The `k`-byte big-endian string of a number (R10). -/
def toBytesBE (k v : Nat) : List Byte :=
  (List.range k).map fun i => BitVec.ofNat 8 (v / 256 ^ (k - 1 - i))

/-- `be32(b)` of a 4-byte string (R10). -/
def be32 (b : List Byte) : Word := BitVec.ofNat 32 (beNat b)

/-- `tobe32(v)` (R10). -/
def tobe32 (v : Word) : List Byte := toBytesBE 4 v.toNat

/-- `tobe64(v)` (R10). -/
def tobe64 (v : Nat) : List Byte := toBytesBE 8 v

/-- The `k` low bits of a number, most significant first (R9). -/
def bitsMsb : Nat → Nat → List Bool
  | 0, _ => []
  | k + 1, v => v.testBit k :: bitsMsb k v

/-- The number a bit string denotes, most significant bit first (R9). -/
def bitsNat (b : List Bool) : Nat := b.foldl (fun acc x => acc * 2 + x.toNat) 0

/-- `bitsof(b)`: the bits of a byte string, bit 7 of each byte first (R9). -/
def bitsOf (b : List Byte) : List Bool := b.flatMap fun x => bitsMsb 8 x.toNat

/-- The first `m` consecutive slices of `k` elements: slice `j` is `l[k*j .. k*j+k)`. -/
def slices {α : Type} (k : Nat) : Nat → List α → List (List α)
  | 0, _ => []
  | m + 1, l => l.take k :: slices k m (l.drop k)

end Sys2Proof.Machine
end

