-- ==== Sys2Proof/Machine/Base32.lean ====
section
/-! DEFINITION. The Base32 codec as pure functions (spec/40_base32.md R110 to R128). -/

namespace Sys2Proof.Machine

/-- The padding character `=` (R111). -/
def padChar : Byte := 0x3D

/-- `b32val(c)`: the 5-bit value of a symbol, none for a byte outside the alphabet (R111, R113). -/
def b32val (c : Byte) : Option (BitVec 5) :=
  if 0x41 ≤ c.toNat ∧ c.toNat ≤ 0x5A then some (BitVec.ofNat 5 (c.toNat - 0x41))
  else if 0x32 ≤ c.toNat ∧ c.toNat ≤ 0x37 then some (BitVec.ofNat 5 (c.toNat - 0x32 + 26))
  else none

/-- `b32sym(v)`: the symbol of a 5-bit value (R112). -/
def b32sym (v : BitVec 5) : Byte :=
  if v.toNat ≤ 25 then BitVec.ofNat 8 (0x41 + v.toNat) else BitVec.ofNat 8 (0x32 + (v.toNat - 26))

/-- The number `p` of `=` bytes, counted over the whole text (R115). -/
def padCount (t : List Byte) : Nat := t.count padChar

/-- The padding counts a text may have (R115). -/
def legalPadCount (p : Nat) : Bool := [0, 1, 3, 4, 6].contains p

/-- The text `s` without its last `p` bytes (R117). -/
def symbolsOf (t : List Byte) : List Byte := t.take (t.length - padCount t)

/-- Whether the last `p` bytes are all `=` (R116). -/
def padAtEnd (t : List Byte) : Bool := (t.drop (t.length - padCount t)).all (· == padChar)

/-- R118: the 5-bit values as one bit string, cut into whole bytes; the trailing partial byte is discarded
(spec/90_conflicts.md C1). -/
def bytesOfValues (vs : List (BitVec 5)) : List Byte :=
  let bits := vs.flatMap fun v => bitsMsb 5 v.toNat
  (slices 8 (5 * vs.length / 8) bits).map fun g => BitVec.ofNat 8 (bitsNat g)

/-- `b32decode(t)` (R115 to R118). -/
def b32decode (t : List Byte) : Except ErrorName (List Byte) :=
  if !legalPadCount (padCount t) then .error .decodeFailure
  else if !padAtEnd t then .error .decodeFailure
  else
    match (symbolsOf t).mapM b32val with
    | none => .error .decodeFailure
    | some vs => .ok (bytesOfValues vs)

/-- The number of symbols of `k` bytes: `q = ceil(8k / 5)` (R125). -/
def symbolCount (k : Nat) : Nat := (8 * k + 4) / 5

/-- `b32encode(b)` (R125): zero bits up to a multiple of 5, one symbol for each 5 bits, `=` up to a multiple of 8. -/
def b32encode (b : List Byte) : List Byte :=
  let q := symbolCount b.length
  let bits := bitsOf b ++ List.replicate (5 * q - 8 * b.length) false
  (slices 5 q bits).map (fun g => b32sym (BitVec.ofNat 5 (bitsNat g))) ++ List.replicate ((8 - q % 8) % 8) padChar

end Sys2Proof.Machine
end

