-- ==== Sys2Proof/Machine/Operands.lean ====
section
/-! DEFINITION. The operands of the commands (spec/10_state.md R46, spec/20_memory.md R61). The operands of CONFIG are
fields of its word and come from the decoder (spec/30_encoding.md R91); there are no other operand forms. -/

namespace Sys2Proof.Machine

/-- The input text or bytes: `IBUF[0 .. ILEN.LEN)` (R35, R42). -/
def State.input (s : State) : List Byte := s.ibuf.readBytes s.ilen.toNat

/-- The condition of LengthError: the host claims more input bytes than IBUF holds (spec/60_exceptions.md R258). -/
def State.inputTooLong (s : State) : Bool := decide (Config.ibufBytes < s.ilen.toNat)

/-- The time-step operand of OTP: TSTEP_LO alone; TSTEP_HI is not an operand (R37, R38). -/
def State.timeStep (s : State) : Word := s.tstepLo

end Sys2Proof.Machine
end

