-- ==== Sys2Proof/Machine/Codec.lean ====
section
/-! DEFINITION. The meanings of B32DEC (spec/40_base32.md R114) and B32ENC (R124): their whole completion steps. -/

namespace Sys2Proof.Machine

/-- `B32DEC` (R114): LengthError, then DecodeFailure, else the decoded bytes. -/
def execB32dec (s : State) : Host.Outcome State Fault Refusal :=
  let c := s.commonClear
  .next <|
    if s.inputTooLong then c.raise .lengthError
    else
      match b32decode s.input with
      | .error e => c.raise e
      | .ok bytes => (c.deliver bytes).finish

/-- `B32ENC` (R124): LengthError, else the encoded text. -/
def execB32enc (s : State) : Host.Outcome State Fault Refusal :=
  let c := s.commonClear
  .next <|
    if s.inputTooLong then c.raise .lengthError
    else (c.deliver (b32encode s.input)).finish

end Sys2Proof.Machine
end

