-- ==== Sys2Proof/Machine/Control.lean ====
section
/-! DEFINITION. The meaning of CLEAR (spec/43_control.md R214) and the completion of an illegal word (R215). -/

namespace Sys2Proof.Machine

/-- The operand storage zeroised (R214). -/
def State.zeroise (s : State) : State := { s with ibuf := [], ilen := 0, tstepLo := 0, tstepHi := 0 }

/-- `CLEAR` (R214): it cannot fail and keeps the configuration. -/
def execClear (s : State) : Host.Outcome State Fault Refusal := .next s.commonClear.zeroise.finish

/-- The completion step of a word that selects no row: IllegalCommand (R215). -/
def State.illegal (s : State) : State := s.commonClear.raise .illegalCommand

end Sys2Proof.Machine
end

