-- ==== Sys2Proof/Machine/Hash.lean ====
section
/-! DEFINITION. SHA-1 and SHA-256 (spec/41_hash_hmac.md R141 to R155), as the spec transcribes them (log 13). -/

namespace Sys2Proof.Machine

/-- `pad(m)` (R143): 0x80, then `(55 - l) mod 64` zero bytes, then the length in bits. -/
def hashPad (m : List Byte) : List Byte :=
  m ++ [0x80] ++ List.replicate ((64 + 55 - m.length % 64) % 64) 0 ++ tobe64 (8 * m.length)

/-- Parsing (R144): the blocks of a padded message, each as 16 big-endian words. -/
def hashBlocks (m : List Byte) : List (List Word) :=
  let p := hashPad m
  (slices 64 (p.length / 64) p).map fun block => (slices 4 16 block).map be32

/-- SHA-1 chaining value, and the working variables `a` to `e` (R145, R148). -/
structure Sha1Words where
  a : Word
  b : Word
  c : Word
  d : Word
  e : Word
deriving DecidableEq, Repr

/-- SHA-1 initial chaining value (R145). -/
def sha1Init : Sha1Words :=
  { a := 0x67452301, b := 0xEFCDAB89, c := 0x98BADCFE, d := 0x10325476, e := 0xC3D2E1F0 }

/-- `f_t(b, c, d)` (R146). -/
def sha1F (t : Nat) (b c d : Word) : Word :=
  if t ≤ 19 then (b &&& c) ||| (~~~b &&& d)
  else if t ≤ 39 then b ^^^ c ^^^ d
  else if t ≤ 59 then (b &&& c) ||| (b &&& d) ||| (c &&& d)
  else b ^^^ c ^^^ d

/-- `K_t` (R146). -/
def sha1K (t : Nat) : Word :=
  if t ≤ 19 then 0x5A827999 else if t ≤ 39 then 0x6ED9EBA1 else if t ≤ 59 then 0x8F1BBCDC else 0xCA62C1D6

/-- `W[t]` from the words before it, for `t ≥ 16` (R147). -/
def sha1NextW (w : List Word) (t : Nat) : Word :=
  rotl32 (w.getD (t - 3) 0 ^^^ w.getD (t - 8) 0 ^^^ w.getD (t - 14) 0 ^^^ w.getD (t - 16) 0) 1

/-- `W[0 .. 80)` of one block (R147). -/
def sha1Schedule (block : List Word) : List Word :=
  (List.range 64).foldl (fun w i => w ++ [sha1NextW w (16 + i)]) block

/-- One pass of the loop body (R148). -/
def sha1Round (v : Sha1Words) (t : Nat) (w : Word) : Sha1Words :=
  { a := rotl32 v.a 5 + sha1F t v.b v.c v.d + v.e + sha1K t + w
    b := v.a
    c := rotl32 v.b 30
    d := v.c
    e := v.d }

/-- Compression of one block (R148). -/
def sha1Compress (h : Sha1Words) (block : List Word) : Sha1Words :=
  let w := sha1Schedule block
  let v := (List.range 80).foldl (fun v t => sha1Round v t (w.getD t 0)) h
  { a := h.a + v.a, b := h.b + v.b, c := h.c + v.c, d := h.d + v.d, e := h.e + v.e }

/-- `SHA1(m)` (R149). -/
def sha1 (m : List Byte) : List Byte :=
  let h := (hashBlocks m).foldl sha1Compress sha1Init
  [h.a, h.b, h.c, h.d, h.e].flatMap tobe32

/-- SHA-256 chaining value, and the working variables `a` to `h` (R150, R154). -/
structure Sha256Words where
  a : Word
  b : Word
  c : Word
  d : Word
  e : Word
  f : Word
  g : Word
  h : Word
deriving DecidableEq, Repr

/-- SHA-256 initial chaining value (R150). -/
def sha256Init : Sha256Words :=
  { a := 0x6A09E667, b := 0xBB67AE85, c := 0x3C6EF372, d := 0xA54FF53A
    e := 0x510E527F, f := 0x9B05688C, g := 0x1F83D9AB, h := 0x5BE0CD19 }

/-- The round constants `K[0 .. 64)` (R151). -/
def sha256K : List Word :=
  [0x428A2F98, 0x71374491, 0xB5C0FBCF, 0xE9B5DBA5, 0x3956C25B, 0x59F111F1, 0x923F82A4, 0xAB1C5ED5] ++
  [0xD807AA98, 0x12835B01, 0x243185BE, 0x550C7DC3, 0x72BE5D74, 0x80DEB1FE, 0x9BDC06A7, 0xC19BF174] ++
  [0xE49B69C1, 0xEFBE4786, 0x0FC19DC6, 0x240CA1CC, 0x2DE92C6F, 0x4A7484AA, 0x5CB0A9DC, 0x76F988DA] ++
  [0x983E5152, 0xA831C66D, 0xB00327C8, 0xBF597FC7, 0xC6E00BF3, 0xD5A79147, 0x06CA6351, 0x14292967] ++
  [0x27B70A85, 0x2E1B2138, 0x4D2C6DFC, 0x53380D13, 0x650A7354, 0x766A0ABB, 0x81C2C92E, 0x92722C85] ++
  [0xA2BFE8A1, 0xA81A664B, 0xC24B8B70, 0xC76C51A3, 0xD192E819, 0xD6990624, 0xF40E3585, 0x106AA070] ++
  [0x19A4C116, 0x1E376C08, 0x2748774C, 0x34B0BCB5, 0x391C0CB3, 0x4ED8AA4A, 0x5B9CCA4F, 0x682E6FF3] ++
  [0x748F82EE, 0x78A5636F, 0x84C87814, 0x8CC70208, 0x90BEFFFA, 0xA4506CEB, 0xBEF9A3F7, 0xC67178F2]

/-- The logical functions of R152. -/
def sha256Ch (x y z : Word) : Word := (x &&& y) ^^^ (~~~x &&& z)
def sha256Maj (x y z : Word) : Word := (x &&& y) ^^^ (x &&& z) ^^^ (y &&& z)
def sha256BigSigma0 (x : Word) : Word := rotr32 x 2 ^^^ rotr32 x 13 ^^^ rotr32 x 22
def sha256BigSigma1 (x : Word) : Word := rotr32 x 6 ^^^ rotr32 x 11 ^^^ rotr32 x 25
def sha256SmallSigma0 (x : Word) : Word := rotr32 x 7 ^^^ rotr32 x 18 ^^^ (x >>> 3)
def sha256SmallSigma1 (x : Word) : Word := rotr32 x 17 ^^^ rotr32 x 19 ^^^ (x >>> 10)

/-- `W[t]` from the words before it, for `t ≥ 16` (R153). -/
def sha256NextW (w : List Word) (t : Nat) : Word :=
  sha256SmallSigma1 (w.getD (t - 2) 0) + w.getD (t - 7) 0 + sha256SmallSigma0 (w.getD (t - 15) 0) + w.getD (t - 16) 0

/-- `W[0 .. 64)` of one block (R153). -/
def sha256Schedule (block : List Word) : List Word :=
  (List.range 48).foldl (fun w i => w ++ [sha256NextW w (16 + i)]) block

/-- One pass of the loop body (R154), with `k = K[t]` and `w = W[t]`. -/
def sha256Round (v : Sha256Words) (k w : Word) : Sha256Words :=
  let t1 := v.h + sha256BigSigma1 v.e + sha256Ch v.e v.f v.g + k + w
  let t2 := sha256BigSigma0 v.a + sha256Maj v.a v.b v.c
  { a := t1 + t2, b := v.a, c := v.b, d := v.c, e := v.d + t1, f := v.e, g := v.f, h := v.g }

/-- Compression of one block (R154). -/
def sha256Compress (h : Sha256Words) (block : List Word) : Sha256Words :=
  let w := sha256Schedule block
  let v := (List.range 64).foldl (fun v t => sha256Round v (sha256K.getD t 0) (w.getD t 0)) h
  { a := h.a + v.a, b := h.b + v.b, c := h.c + v.c, d := h.d + v.d
    e := h.e + v.e, f := h.f + v.f, g := h.g + v.g, h := h.h + v.h }

/-- `SHA256(m)` (R155). -/
def sha256 (m : List Byte) : List Byte :=
  let h := (hashBlocks m).foldl sha256Compress sha256Init
  [h.a, h.b, h.c, h.d, h.e, h.f, h.g, h.h].flatMap tobe32

/-- `HASH(alg, m)` (R141). -/
def hash : HashAlg → List Byte → List Byte
  | .sha1, m => sha1 m
  | .sha256, m => sha256 m

/-- The digest size `L` in bytes (R141). -/
def macBytes : HashAlg → Nat
  | .sha1 => 20
  | .sha256 => 32

end Sys2Proof.Machine
end

