-- ==== Sys2Proof/Machine/Hmac.lean ====
section
/-! DEFINITION. HMAC over the two hash functions (spec/41_hash_hmac.md R156, R157). -/

namespace Sys2Proof.Machine

/-- The key as one block: hashed first where it is longer than a block, then right-padded with zeros (R156). -/
def hmacBlockKey (alg : HashAlg) (key : List Byte) : List Byte :=
  let k := if Config.hashBlockBytes < key.length then hash alg key else key
  k ++ List.replicate (Config.hashBlockBytes - k.length) 0

/-- `HMAC(alg, key, msg)` (R156). -/
def hmac (alg : HashAlg) (key msg : List Byte) : List Byte :=
  let k0 := hmacBlockKey alg key
  let inner := hash alg (k0.map (· ^^^ 0x36) ++ msg)
  hash alg (k0.map (· ^^^ 0x5C) ++ inner)

end Sys2Proof.Machine
end

