-- ==== Sys2Proof/Machine/Code.lean ====
section
/-! DEFINITION. The one-time code as a pure function (spec/42_otp.md R186 to R196). -/

namespace Sys2Proof.Machine

/-- Step 1, the key: the decoded secret, or the empty key where the secret is malformed (R186). -/
def keyOf (secret : List Byte) : List Byte :=
  match b32decode secret with
  | .ok bytes => bytes
  | .error _ => []

/-- Step 2, the message: four zero bytes and the 32-bit time-step, big-endian (R187). -/
def messageOf (tstep : Word) : List Byte := [0, 0, 0, 0] ++ tobe32 tstep

/-- The offset of step 4: the low 4 bits of the MAC's last byte (R189). -/
def truncOffset (mac : List Byte) : Nat := (mac.getD (mac.length - 1) 0 &&& 0x0F).toNat

/-- Step 4, dynamic truncation: `dbc`, the selected 4 bytes with bit 31 cleared (R189). -/
def truncateMac (mac : List Byte) : Nat :=
  (be32 ((mac.drop (truncOffset mac)).take 4) &&& 0x7FFFFFFF).toNat

/-- Rendering: exactly `codelen` ASCII digits, most significant first (R192). -/
def renderCode (codelen value : Nat) : List Byte :=
  (List.range codelen).map fun i => BitVec.ofNat 8 (0x30 + value / 10 ^ (codelen - 1 - i) % 10)

/-- `computeCode(alg, codelen, secret, tstep32)` (R196). R196 gives it for a secret of 0 to 256 bytes and a length of 6 to
255; outside these ranges, where no `OTP` command computes it, the same steps go on (DESIGN CHOICE, log 22). -/
def computeCode (alg : HashAlg) (codelen : Nat) (secret : List Byte) (tstep : Word) : List Byte :=
  let mac := hmac alg (keyOf secret) (messageOf tstep)
  renderCode codelen (truncateMac mac % 10 ^ codelen)

end Sys2Proof.Machine
end

