-- ==== Sys2Proof/Machine/OtpEngine.lean ====
section
/-! DEFINITION. The meanings of CONFIG (spec/42_otp.md R180) and OTP (R184): their whole completion steps. -/

namespace Sys2Proof.Machine

/-- What a successful construction writes (R182). -/
def State.construct (alg : HashAlg) (codelen : Byte) (s : State) : State :=
  { s with cfg := { alg := alg, codelen := codelen }, status := { s.status with cfgv := true } }

/-- `CONFIG` (R180): ConfigLocked, then ConfigurationError, else the engine is constructed. -/
def execConfig (alg codelen : Byte) (s : State) : Host.Outcome State Fault Refusal :=
  let c := s.commonClear
  .next <|
    if s.status.cfgv then c.raise .configLocked
    else
      match HashAlg.ofCode alg with
      | none => c.raise .configurationError
      | some a =>
        if codelen.toNat < Config.codeLenMin then c.raise .configurationError
        else (c.construct a codelen).finish

/-- `OTP` (R184): NotConfigured, then LengthError, else the code; a malformed secret raises nothing (R186). -/
def execOtp (s : State) : Host.Outcome State Fault Refusal :=
  let c := s.commonClear
  .next <|
    if !s.status.cfgv then c.raise .notConfigured
    else if s.inputTooLong then c.raise .lengthError
    else (c.deliver (computeCode s.cfg.alg s.cfg.codelen.toNat s.input s.timeStep)).finish

end Sys2Proof.Machine
end

