-- ==== Sys2Proof/Machine/Dispatch.lean ====
section
/-! DEFINITION. One arm for each command: the completion step of a decoded command (spec/43_control.md R212). -/

namespace Sys2Proof.Machine

def exec (i : Instr) (s : State) : Host.Outcome State Fault Refusal :=
  match i with
  | .config alg codelen => Sys2Proof.Machine.execConfig alg codelen s
  | .b32dec => Sys2Proof.Machine.execB32dec s
  | .b32enc => Sys2Proof.Machine.execB32enc s
  | .otp => Sys2Proof.Machine.execOtp s
  | .clear => Sys2Proof.Machine.execClear s

end Sys2Proof.Machine
end

