-- ==== Sys2Proof/Machine/Agents.lean ====
section
/-! DEFINITION. The moves of the agents (spec/00_scope.md R14): the engine's completion step (spec/43_control.md R212),
the host's accesses, its polling and readout loops (spec/30_encoding.md R99), RESET, and who moves next. -/

namespace Sys2Proof.Machine

/-- The completion step (R212): decode LCMD and run the command, or complete the illegal word (R215). -/
def completionStep (s : State) : Host.Outcome State Fault Refusal :=
  match decode s.lcmd with
  | .ok i => exec i s
  | .error _ => .next s.illegal

/-- The engine's turn: its one step while BUSY = 1; no step while BUSY = 0 (R212), where nothing happens (log 7). -/
def engineTurn (s : State) : Host.Outcome State Fault Refusal :=
  if s.status.busy then completionStep s else .next s

/-- The same block with another schedule. -/
def State.reschedule (es : List Event) (s : State) : State := { s with schedule := es }

/-- Put moves before the ones already scheduled. -/
def State.doFirst (es : List Event) (s : State) : State := s.reschedule (es ++ s.schedule)

/-- The host reads STATUS (`RD STATUS`, R97). -/
def State.pollStatus (s : State) : State := s.respond (.word (regOffset .status) (s.wordAt (regOffset .status)))

/-- `WAIT` (R99): poll STATUS until it reads BUSY = 0. After `polls` busy polls the engine moves, since it is weakly fair
(R212); `polls` is any number, so every finite delay is some schedule (log 11). -/
def waitTurn (polls : Nat) (s : State) : State :=
  if s.status.busy then
    match polls with
    | 0 => s.doFirst [.engine, .wait 0]
    | k + 1 => s.pollStatus.doFirst [.wait k]
  else s.pollStatus

/-- `READOUT` (R99): read OLEN, then as many OBUF bytes as the value read says. -/
def readoutTurn (s : State) : State :=
  let v := s.wordAt (regOffset .olen)
  (s.respond (.word (regOffset .olen) v)).doFirst
    ((List.range (v.setWidth 16).toNat).map fun i => .access (.readByte (0x200 + i)))

/-- One scheduled move. -/
def runEvent (e : Event) (s : State) : Host.Outcome State Fault Refusal :=
  match e with
  | .access a => hostAccess a s
  | .engine => engineTurn s
  | .reset => .next s.resetEvent
  | .wait polls => .next (waitTurn polls s)
  | .readout => .next (readoutTurn s)

/-- The next move: the first of the schedule; where nothing is scheduled, the engine's (log 1). -/
def nextMove (s : State) : Host.Outcome State Fault Refusal :=
  match s.schedule with
  | [] => engineTurn s
  | e :: rest => runEvent e (s.reschedule rest)

/-- The state in which `w` is the pending command and the engine moves next (log 6). -/
def State.pending (w : Word) (s : State) : State := (s.accept w).doFirst [.engine]

end Sys2Proof.Machine
end

