-- ==== Sys2Proof/Machine/Step.lean ====
section
/-! DEFINITION. One step of the machine: the next move of one of its agents (spec/00_scope.md R14, spec/20_memory.md
R71), and how the host's checks place a command word. -/

namespace Sys2Proof.Machine

/-- One atomic transition: a host access, RESET or the engine's completion step. -/
def step (s : State) : Host.Outcome State Fault Refusal := nextMove s

/-- `s` with the command word accepted (R210) and the engine's turn next, so that the next step runs that command. The
block fetches nothing (spec/10_state.md R22): the word stands where the completion step takes it, in LCMD (log 6). -/
def State.withFetchWord (s : State) (nbits w : Nat) : State := s.pending (tableWord nbits w)

end Sys2Proof.Machine
end

