-- ==== Sys2Proof/Machine/HostProcedures.lean ====
section
/-! DEFINITION. The host procedures of spec/44_host_procedures.md R220 to R234, as pure functions. They are not part of
the block (spec/00_scope.md R5); the clock and the entropy source are arguments (log 12). The provisioning URI (R236) is
out of scope (R6). -/

namespace Sys2Proof.Machine

/-- `timeStepOf(unixTime)` (R220). -/
def timeStepOf (unixTime : Nat) : Nat := unixTime / Config.stepSeconds

/-- `currentTimeStep()` (R220); the host's clock, in seconds of unix time, is an argument (log 12). -/
def currentTimeStep (clock : Nat) : Nat := timeStepOf clock

/-- `timingSafeEquals(a, b)` with its accumulator (R228). Its timing demand is not modelled (R292). -/
def timingSafeEquals (a b : List Byte) : Bool :=
  if a.length ≠ b.length then false
  else (a.zip b).foldl (fun acc p => acc ||| (p.1 ^^^ p.2)) (0 : Byte) == 0

/-- `referenceTimeStep + offset`, taken modulo 2^32 (R226). -/
def windowStep (reference : Nat) (offset : Int) : Word := BitVec.ofInt 32 (reference + offset)

/-- The offsets `-discrepancy, ..., +discrepancy` in ascending order (R224). -/
def windowOffsets (discrepancy : Nat) : List Int :=
  (List.range (2 * discrepancy + 1)).map fun k => (k : Int) - discrepancy

/-- `verifyCode(secret, candidateCode, discrepancy = 1, referenceTimeStep = currentTimeStep())` (R222 to R224) on an engine
constructed with `alg` and `codelen`, by a host whose clock reads `clock`. DESIGN CHOICE (log 22): for a secret longer than
256 bytes, for which R221 has the block raise LengthError and the spec gives no result of the verifier, the codes are
computed as for a shorter one. Unsafe there. -/
def verifyCode (alg : HashAlg) (codelen clock : Nat) (secret candidate : List Byte) (discrepancy : Nat := 1)
    (reference : Nat := currentTimeStep clock) : Bool :=
  if candidate.length ≠ codelen then false
  else
    (windowOffsets discrepancy).any fun offset =>
      timingSafeEquals (computeCode alg codelen secret (windowStep reference offset)) candidate

/-- The errors only the host procedures raise (R234). -/
inductive HostError
  | rangeError
  | randomnessUnavailable
deriving DecidableEq, Repr

/-- The symbol of a random byte, `alphabet[b & 0x1F]` (R231, spec/40_base32.md R128). -/
def secretSymbol (b : Byte) : Byte := b32sym ((b &&& 0x1F).setWidth 5)

/-- `createSecret(length)` (R229 to R231). `entropy` is the secure source: none where there is no qualifying one, else
its bytes by index (R230). The length is checked first (log 14). -/
def createSecret (entropy : Option (Nat → Byte)) (length : Nat := 32) : Except HostError (List Byte) :=
  if length < Config.secretLenMin ∨ Config.secretLenMax < length then .error .rangeError
  else
    match entropy with
    | none => .error .randomnessUnavailable
    | some random => .ok ((List.range length).map fun i => secretSymbol (random i))

end Sys2Proof.Machine
end

