-- ==== Sys2Proof/Machine/Script.lean ====
section
/-! DEFINITION. The host script of spec/30_encoding.md R97 to R99 as moves of the host. "It is notation for this spec and
carries no behaviour of its own." -/

namespace Sys2Proof.Machine

/-- `WR CMD, <word>` -/
def issue (w : Word) : List Event := [.access (.writeWord (regOffset .cmd) w)]

/-- `WRB IBUF[i], b` for each byte from index `i` on (R99). -/
def loadBytes : Nat → List Byte → List Event
  | _, [] => []
  | i, b :: bs => .access (.writeByte (0x100 + i) b) :: loadBytes (i + 1) bs

/-- What each line expands to (R97, R98, R99). -/
def expandLine : ScriptLine → List Event
  | .wr r v => [.access (.writeWord (regOffset r) v)]
  | .rd r => [.access (.readWord (regOffset r))]
  | .wrb i v => [.access (.writeByte (0x100 + i) v)]
  | .rdbIbuf i => [.access (.readByte (0x100 + i))]
  | .rdbObuf i => [.access (.readByte (0x200 + i))]
  | .config alg codelen => issue (BitVec.ofNat 32 (0x01 + alg * 2 ^ 8 + codelen * 2 ^ 16))
  | .b32dec => issue 0x00000002
  | .b32enc => issue 0x00000003
  | .otp => issue 0x00000004
  | .clear => issue 0x00000005
  | .load bytes =>
    loadBytes 0 bytes ++ [.access (.writeWord (regOffset .ilen) (BitVec.ofNat 32 bytes.length))]
  | .tstep v =>
    [.access (.writeWord (regOffset .tstepLo) (BitVec.ofNat 32 v)),
     .access (.writeWord (regOffset .tstepHi) (BitVec.ofNat 32 (v / 2 ^ 32)))]
  | .wait polls => [.wait polls]
  | .readout => [.readout]

/-- A whole script. -/
def expandScript (lines : List ScriptLine) : List Event := lines.flatMap expandLine

/-- The host form of `computeCode(secret, timeStep)` on a configured block (spec/44_host_procedures.md R221). -/
def computeCodeScript (secret : List Byte) (timeStep polls : Nat) : List ScriptLine :=
  [.load secret, .tstep timeStep, .otp, .wait polls]

end Sys2Proof.Machine
end

