-- ==== Sys2Proof/WellFormed.lean ====
section
/-! DEFINITION. Which accesses and script lines the host has. An `Instr` carries its field widths in its type, so every
`Instr` is well formed and encodes to one word; what can be ill-formed is a host access (spec/20_memory.md R66) or a
script line (spec/30_encoding.md R97 to R99). -/

namespace Sys2Proof

/-- The host's legal accesses (R62 to R65, R75); every other one is a bus error (R66), a word access to the reserved tail
among them (DESIGN CHOICE, log 21). -/
def Access.wellFormed : Access → Bool
  | .readWord off => off % 4 == 0 && decide (off ≤ 0x0FC)
  | .writeWord off _ => off % 4 == 0 && decide (off ≤ 0x0FC)
  | .readByte off => decide (0x100 ≤ off) && decide (off ≤ 0x3FF)
  | .writeByte off _ => decide (0x100 ≤ off) && decide (off ≤ 0x3FF)
  | .otherWidth _ _ => false

/-- A script line whose operands are in the ranges R97 to R99 give: buffer indices inside the buffers, CONFIG operands
0 to 255, a loaded text that fits IBUF (spec/44_host_procedures.md R221). -/
def ScriptLine.wellFormed : ScriptLine → Bool
  | .wrb i _ => decide (i < Config.ibufBytes)
  | .rdbIbuf i => decide (i < Config.ibufBytes)
  | .rdbObuf i => decide (i < Config.obufBytes)
  | .config alg codelen => decide (alg ≤ 255) && decide (codelen ≤ 255)
  | .load bytes => decide (bytes.length ≤ Config.ibufBytes)
  | .wr _ _ => true
  | .rd _ => true
  | .b32dec => true
  | .b32enc => true
  | .otp => true
  | .clear => true
  | .tstep _ => true
  | .wait _ => true
  | .readout => true

end Sys2Proof
end

