-- ==== Sys2Proof/Safety.lean ====
section
/-! DEFINITION. The terms in which claims about the machine are stated: the invariant of the block's state, the block
apart from its environment, well-formed host moves and runs. -/

namespace Sys2Proof.Machine

/-- What holds of every state the block can reach. -/
structure State.Inv (s : State) : Prop where
  /-- IBUF is canonical and inside its 256 bytes (R42). -/
  ibufWf : s.ibuf.wf
  ibufWithin : s.ibuf.within Config.ibufBytes
  /-- OBUF is canonical and inside its 416 bytes (R43). -/
  obufWf : s.obuf.wf
  obufWithin : s.obuf.within Config.obufBytes
  /-- OLEN.LEN is in 0 to 416 (R36). -/
  olenMax : s.olen.toNat ≤ Config.obufBytes
  /-- Every OBUF byte at index OLEN.LEN and above is 0x00 (R43). -/
  obufTail : ∀ i, s.olen.toNat ≤ i → s.obuf.read i = 0
  /-- BUSY and DONE are never both 1 (R27). -/
  busyNotDone : ¬(s.status.busy = true ∧ s.status.done = true)
  /-- While BUSY = 1, ERR = 0 and ERRCODE = 0 (R28, spec/70_reset_and_hazards.md R286). -/
  busyNoError : s.status.busy = true → s.status.err = false ∧ s.status.errcode = 0
  /-- ERR = 1 exactly when ERRCODE ≠ 0 (R28). -/
  errIff : s.status.err = true ↔ s.status.errcode ≠ 0
  /-- ERRCODE 7 to 15 never occur (R28, spec/60_exceptions.md R254). -/
  errcodeMax : s.status.errcode.toNat ≤ 6
  /-- After an error OLEN = 0 and OBUF is all zero (R31). -/
  errClears : s.status.err = true → s.olen = 0 ∧ s.obuf = []
  /-- While CFGV = 1, 6 ≤ CODELEN (R32, spec/42_otp.md R182). -/
  cfgLegal : s.status.cfgv = true → Config.codeLenMin ≤ s.cfg.codelen.toNat
  /-- While CFGV = 0, CFG reads 0 (R32). -/
  cfgClear : s.status.cfgv = false → s.cfg = State.reset.cfg
  /-- BUSY = 0 and DONE = 0 mean that no command was issued since reset (R27). -/
  fresh : s.status.busy = false → s.status.done = false →
    s.status = State.reset.status ∧ s.olen = 0 ∧ s.obuf = []

/-- The block apart from the environment the model adds to it. -/
def State.block (s : State) : State := { s with schedule := [], responses := [], draws := 0 }

/-- The engine has the move: nothing is scheduled, or its turn is. -/
def State.engineMoves (s : State) : Bool :=
  match s.schedule with
  | [] => true
  | .engine :: _ => true
  | _ => false

/-- The next move is RESET. -/
def State.resets (s : State) : Bool := s.schedule.head? == some .reset

/-- The next move is the host writing a command word to CMD. -/
def State.issues (s : State) : Bool :=
  match s.schedule with
  | .access (.writeWord off _) :: _ => off == regOffset .cmd
  | _ => false

/-- A move the host has: no bus error (spec/20_memory.md R66). -/
def Event.wellFormed : Event → Bool
  | .access a => a.wellFormed
  | .engine => true
  | .reset => true
  | .wait _ => true
  | .readout => true

/-- A host access that writes to CMD. -/
def issuesCommand : Access → Bool
  | .writeWord off _ => off == regOffset .cmd
  | .readWord _ => false
  | .readByte _ => false
  | .writeByte _ _ => false
  | .otherWidth _ _ => false

/-- The state reached after `n` steps, if none of them stops. -/
def State.runsTo (s : State) (n : Nat) (t : State) : Prop := Host.Core.run Sys2Proof.core n s = .next t

/-- The result the host reads out: `OBUF[0 .. OLEN.LEN)`. -/
def State.result (s : State) : List Byte := s.obuf.readBytes s.olen.toNat

/-- What a completion step that raises the error of a code leaves (spec/60_exceptions.md R256): OBUF and OLEN cleared,
STATUS written, everything else as before. -/
def State.failedWithCode (s : State) (code : BitVec 4) : State :=
  { s with
    obuf := [], olen := 0
    status := { busy := false, done := true, err := true, errcode := code, cfgv := s.status.cfgv } }

/-- What raising an error by its name leaves. -/
def State.failedWith (s : State) (e : ErrorName) : State := s.failedWithCode e.code

/-- What holds of the block right after a completion step (spec/10_state.md R31). -/
structure State.Completed (t : State) : Prop where
  busy : t.status.busy = false
  done : t.status.done = true
  errIff : t.status.err = true ↔ t.status.errcode ≠ 0
  errClears : t.status.err = true → t.olen = 0 ∧ ∀ a, t.obuf.read a = 0

/-- What a completion step with a result leaves (spec/43_control.md R213, spec/60_exceptions.md R256): the result in OBUF,
its length in OLEN, zeros behind it, STATUS without an error, everything else as before. -/
structure Delivers (s t : State) (bytes : List Byte) : Prop where
  result : t.result = bytes
  length : t.olen.toNat = bytes.length
  tail : ∀ i, bytes.length ≤ i → t.obuf.read i = 0
  status : t.status = { busy := false, done := true, err := false, errcode := 0, cfgv := s.status.cfgv }
  ibufFrame : ∀ i, t.ibuf.read i = s.ibuf.read i
  frame : t = { s with status := t.status, olen := t.olen, obuf := t.obuf }

end Sys2Proof.Machine
end

