-- ==== Sys2Proof/Certificates/Slice0/Obligations.lean ====
section
/-! DEFINITION. What is claimed of the machine, one definition for each statement. Rules are those of spec/. -/

open Sys2Proof Sys2Proof.Machine

/-! ### Reset -/

/-- R47: after reset every register and every buffer byte is 0, and STATUS and CFG read 0x00000000. -/
def Obligations.ResetLeavesEverythingZero : Prop :=
  State.reset.status.word = 0x00000000 ∧ State.reset.cfg.word = 0x00000000 ∧
  State.reset.status = { busy := false, done := false, err := false, errcode := 0, cfgv := false } ∧
  State.reset.ilen = 0 ∧ State.reset.olen = 0 ∧ State.reset.tstepLo = 0 ∧ State.reset.tstepHi = 0 ∧
  State.reset.lcmd = 0 ∧ ∀ i, State.reset.ibuf.read i = 0 ∧ State.reset.obuf.read i = 0

/-- R280: from every state, a pending command or not, the RESET event gives every piece of the block's state its reset
value. -/
def Obligations.ResetEventRestoresResetState : Prop :=
  ∀ (s : State) (rest : List Event), s.schedule = .reset :: rest →
    ∃ t, step s = .next t ∧ t.block = State.reset

/-! ### Invariants -/

def Obligations.ResetStateMeetsInvariant : Prop := State.reset.Inv

/-- R27, R28, R31, R32, R36, R42, R43, R182 as one inductive invariant. -/
def Obligations.EveryStepKeepsInvariant : Prop := ∀ s t : State, s.Inv → step s = .next t → t.Inv

/-- R26: BUSY is 1 after a step exactly when the step accepted a CMD write, or it was 1 and neither the engine nor RESET
moved. -/
def Obligations.BusyChangesOnlyByAcceptanceCompletionReset : Prop :=
  ∀ s t : State, step s = .next t →
    (t.status.busy = true ↔
      (s.status.busy = false ∧ s.issues = true) ∨
      (s.status.busy = true ∧ s.engineMoves = false ∧ s.resets = false))

/-- R29, R33: RESET clears CFGV; a constructed engine keeps CFGV and CFG through every other step; CFGV becomes 1, and CFG
leaves its reset value, exactly by the completion step of a CONFIG that raises no error (a supported algorithm and
6 ≤ CODELEN), which writes both. -/
def Obligations.ConfigurationIsWrittenOncePerReset : Prop :=
  ∀ s t : State, step s = .next t →
    (s.resets = true → t.status.cfgv = false ∧ t.cfg = State.reset.cfg) ∧
    (s.resets = false → s.status.cfgv = true → t.status.cfgv = true ∧ t.cfg = s.cfg) ∧
    (s.resets = false → s.status.cfgv = false → (t.status.cfgv = true ∨ t.cfg ≠ s.cfg) →
      s.status.busy = true ∧ s.engineMoves = true ∧
      ∃ (alg codelen : Byte) (a : HashAlg), decode s.lcmd = .ok (.config alg codelen) ∧
        HashAlg.ofCode alg = some a ∧ 6 ≤ codelen.toNat) ∧
    (∀ (alg codelen : Byte) (a : HashAlg), s.status.busy = true → s.engineMoves = true → s.status.cfgv = false →
      decode s.lcmd = .ok (.config alg codelen) → HashAlg.ofCode alg = some a → 6 ≤ codelen.toNat →
      t.status.cfgv = true ∧ t.cfg = { alg := a, codelen := codelen })

/-- R36, R43: OBUF and OLEN change only in a completion step, and by RESET. -/
def Obligations.ResultsChangeOnlyByCompletionOrReset : Prop :=
  ∀ s t : State, step s = .next t → (t.olen ≠ s.olen ∨ ∃ i, t.obuf.read i ≠ s.obuf.read i) →
    (s.status.busy = true ∧ s.engineMoves = true) ∨ s.resets = true

/-- R260: ERR and ERRCODE change only by an accepted CMD write, which clears them, by a completion step, and by RESET. -/
def Obligations.ErrorStaysUntilNextCommand : Prop :=
  ∀ s t : State, step s = .next t → (t.status.err ≠ s.status.err ∨ t.status.errcode ≠ s.status.errcode) →
    (s.status.busy = false ∧ s.issues = true ∧ t.status.err = false ∧ t.status.errcode = 0) ∨
    (s.status.busy = true ∧ s.engineMoves = true) ∨
    (s.resets = true ∧ t.status.err = false ∧ t.status.errcode = 0)

/-! ### The host's accesses -/

/-- R210: the write to CMD while BUSY = 0 latches the word and sets BUSY; nothing else of the block changes. -/
def Obligations.AcceptanceLatchesTheWord : Prop :=
  ∀ (s : State) (w : Word) (rest : List Event), s.status.busy = false →
    s.schedule = .access (.writeWord 0x000 w) :: rest →
    step s = .next { s with
      lcmd := w, schedule := rest
      status := { busy := true, done := false, err := false, errcode := 0, cfgv := s.status.cfgv } }

/-- R63: an aligned word write is ignored while BUSY = 1; while BUSY = 0 it issues the command at CMD, stores into ILEN
(bits 15:0), TSTEP_LO or TSTEP_HI, and is ignored at every other offset. -/
def Obligations.WordWriteFollowsRegisterMap : Prop :=
  ∀ (s : State) (off : Nat) (v : Word) (rest : List Event),
    off % 4 = 0 → off ≤ 0x0FC → s.schedule = .access (.writeWord off v) :: rest →
    (s.status.busy = true → step s = .next { s with schedule := rest }) ∧
    (s.status.busy = false → off = 0x000 → step s = .next { s with
      schedule := rest
      lcmd := v
      status := { busy := true, done := false, err := false, errcode := 0, cfgv := s.status.cfgv } }) ∧
    (s.status.busy = false → 0x004 ≤ off → step s = .next { s with
      schedule := rest
      ilen := if off = 0x00C then v.extractLsb' 0 16 else s.ilen
      tstepLo := if off = 0x014 then v else s.tstepLo
      tstepHi := if off = 0x018 then v else s.tstepHi })

/-- R65: a byte write is ignored while BUSY = 1; while BUSY = 0 it stores one IBUF byte, and nothing at OBUF and the
reserved tail. The premise that IBUF is canonical is part of the invariant. -/
def Obligations.ByteWriteStoresOneInputByte : Prop :=
  ∀ (s : State) (off : Nat) (v : Byte) (rest : List Event), s.ibuf.wf →
    0x100 ≤ off → off ≤ 0x3FF → s.schedule = .access (.writeByte off v) :: rest →
    ∃ t, step s = .next t ∧ t = { s with schedule := rest, ibuf := t.ibuf } ∧ t.ibuf.wf ∧
      ∀ i, t.ibuf.read i =
        if s.status.busy = false ∧ off ≤ 0x1FF ∧ i = off - 0x100 then v else s.ibuf.read i

/-- R211, and R68 for the other offsets: while BUSY = 1 every host write of a legal width and offset changes nothing. -/
def Obligations.BusyIgnoresEveryWrite : Prop :=
  ∀ (s : State) (off : Nat) (v : Word) (b : Byte) (rest : List Event), s.status.busy = true →
    (off % 4 = 0 → off ≤ 0x0FC → s.schedule = .access (.writeWord off v) :: rest →
      step s = .next { s with schedule := rest }) ∧
    (0x100 ≤ off → off ≤ 0x3FF → s.schedule = .access (.writeByte off b) :: rest →
      step s = .next { s with schedule := rest })

/-- R62, R69 (OLEN): an aligned word read returns the register's value, 0 at CMD and the reserved offsets, an
unconstrained value with bits 31:16 zero for OLEN while BUSY = 1, and changes nothing in the block. -/
def Obligations.WordReadReturnsRegister : Prop :=
  ∀ (s : State) (off : Nat) (rest : List Event), off % 4 = 0 → off ≤ 0x0FC →
    s.schedule = .access (.readWord off) :: rest →
    ∃ (t : State) (v : Word), step s = .next t ∧ t.block = s.block ∧ t.schedule = rest ∧
      t.responses = s.responses ++ [.word off v] ∧
      (off = 0x004 → v = s.status.word) ∧ (off = 0x008 → v = s.cfg.word) ∧
      (off = 0x00C → v = s.ilen.zeroExtend 32) ∧
      (off = 0x010 → s.status.busy = false → v = s.olen.zeroExtend 32) ∧
      (off = 0x010 → v.extractLsb' 16 16 = 0) ∧
      (off = 0x014 → v = s.tstepLo) ∧ (off = 0x018 → v = s.tstepHi) ∧
      (off = 0x000 ∨ 0x01C ≤ off → v = 0)

/-- R64, R69 (OBUF): a byte read returns the IBUF byte, the OBUF byte while BUSY = 0 (an unconstrained byte while
BUSY = 1), 0x00 in the reserved tail, and changes nothing in the block. -/
def Obligations.ByteReadReturnsBufferByte : Prop :=
  ∀ (s : State) (off : Nat) (rest : List Event), 0x100 ≤ off → off ≤ 0x3FF →
    s.schedule = .access (.readByte off) :: rest →
    ∃ (t : State) (v : Byte), step s = .next t ∧ t.block = s.block ∧ t.schedule = rest ∧
      t.responses = s.responses ++ [.byte off v] ∧
      (off ≤ 0x1FF → v = s.ibuf.read (off - 0x100)) ∧
      (0x200 ≤ off → off ≤ 0x39F → s.status.busy = false → v = s.obuf.read (off - 0x200)) ∧
      (0x3A0 ≤ off → v = 0)

/-- R66: a step stops only where the host's next access is a bus error, and there it is refused; the machine has no
fault. That every other step goes on includes the idle engine's turn, a step of the model and not of R212 (log 7), and that
a word access to the reserved tail is a bus error is the model's choice (log 21). -/
def Obligations.OnlyBusErrorsStopTheMachine : Prop :=
  ∀ s : State,
    (∃ (a : Access) (rest : List Event) (off width : Nat), s.schedule = .access a :: rest ∧ a.wellFormed = false ∧
      step s = .refused (.busError off width)) ∨
    ((∀ (a : Access) (rest : List Event), s.schedule = .access a :: rest → a.wellFormed = true) ∧
      ∃ t, step s = .next t)

/-- R25: the fields of STATUS lie where the table says and its reserved bits read 0. -/
def Obligations.StatusWordHoldsItsFields : Prop :=
  ∀ st : Status, st.word.getLsbD 0 = st.busy ∧ st.word.getLsbD 1 = st.done ∧ st.word.getLsbD 2 = st.err ∧
    st.word.extractLsb' 3 5 = 0 ∧ st.word.extractLsb' 8 4 = st.errcode ∧ st.word.extractLsb' 12 4 = 0 ∧
    st.word.getLsbD 16 = st.cfgv ∧ st.word.extractLsb' 17 15 = 0

/-- R32: the fields of CFG lie where the table says, ALG is 0 for SHA-1 and 1 for SHA-256, the reserved bits read 0. -/
def Obligations.CfgWordHoldsItsFields : Prop :=
  ∀ c : Cfg, c.word.extractLsb' 0 4 = (if c.alg = .sha1 then 0 else 1) ∧ c.word.extractLsb' 4 4 = 0 ∧
    c.word.extractLsb' 8 8 = c.codelen ∧ c.word.extractLsb' 16 16 = 0

/-! ### Ordering -/

/-- R212 (last sentence), R68: whatever legal accesses the host makes between acceptance and completion, the block ends in
the state an immediate completion step gives. -/
def Obligations.ResultIndependentOfCompletionTime : Prop :=
  ∀ (s : State) (accesses : List Access), s.status.busy = true → (∀ a ∈ accesses, a.wellFormed = true) →
    s.schedule = accesses.map Event.access ++ [.engine] →
    ∃ t u : State, s.runsTo (accesses.length + 1) t ∧ step { s with schedule := [.engine] } = .next u ∧
      t.block = u.block

/-- R71 (b), R286: once BUSY = 0, whatever legal accesses the host makes other than a CMD write, OBUF, OLEN, STATUS and CFG
keep the completed command's results. -/
def Obligations.ResultsStayUntilNextCommand : Prop :=
  ∀ (s : State) (accesses : List Access) (rest : List Event), s.status.busy = false →
    (∀ a ∈ accesses, a.wellFormed = true ∧ issuesCommand a = false) →
    s.schedule = accesses.map Event.access ++ rest →
    ∃ t : State, s.runsTo accesses.length t ∧ t.schedule = rest ∧
      t.status = s.status ∧ t.cfg = s.cfg ∧ t.olen = s.olen ∧ ∀ i, t.obuf.read i = s.obuf.read i

/-- R99, R212, R286: WAIT ends, whatever finite number of busy polls the schedule allows before the engine moves, and the
last STATUS it reads is the current one, with BUSY = 0. -/
def Obligations.WaitEndsWithBusyZero : Prop :=
  ∀ (s : State) (polls : Nat) (rest : List Event), s.schedule = .wait polls :: rest →
    ∃ (n : Nat) (t : State) (earlier : List Response), n ≤ polls + 3 ∧ s.runsTo n t ∧ t.schedule = rest ∧
      t.status.busy = false ∧ t.responses = earlier ++ [.word 0x004 t.status.word]

/-- R99 (READOUT), on an idle block: the host reads OLEN and then exactly the result bytes, in order, and nothing of the
block changes. The premise on OLEN is part of the invariant. -/
def Obligations.ReadoutReturnsTheResult : Prop :=
  ∀ (s : State) (rest : List Event), s.status.busy = false → s.olen.toNat ≤ 416 → s.schedule = .readout :: rest →
    ∃ t : State, s.runsTo (s.olen.toNat + 1) t ∧ t.schedule = rest ∧ t.block = s.block ∧
      t.responses = s.responses ++ .word 0x010 (s.olen.zeroExtend 32) ::
        (List.range s.olen.toNat).map fun i => .byte (0x200 + i) (s.obuf.read i)

/-! ### Encoding -/

/-- R92, R95: the decoder reads command `i` from exactly one word, the one the encoder writes. -/
def Obligations.DecodeExactlyInvertsEncode : Prop := ∀ (w : Word) (i : Instr), decode w = .ok i ↔ w = encode i

/-- R92: no word selects two rows of the opcode map. -/
def Obligations.OpcodeRowsAreDisjoint : Prop :=
  ∀ (w : Word) (r r' : OpRow), r ∈ opcodeMap → r' ∈ opcodeMap → r.selects w = true → r'.selects w = true →
    r.mnemonic = r'.mnemonic

/-- R94: the illegal words are exactly those of its three cases. -/
def Obligations.IllegalWordsAreExactlyThose : Prop :=
  ∀ w : Word, (∃ e, decode w = .error e) ↔
    (w.extractLsb' 0 8 = 0 ∨ 6 ≤ (w.extractLsb' 0 8).toNat) ∨ w.extractLsb' 24 8 ≠ 0 ∨
    ((2 ≤ (w.extractLsb' 0 8).toNat ∧ (w.extractLsb' 0 8).toNat ≤ 5) ∧
      (w.extractLsb' 8 8 ≠ 0 ∨ w.extractLsb' 16 8 ≠ 0))

/-- R98's words, and the illegal words of spec/95_test_vectors.md section 5. -/
def Obligations.WrittenOutWordsDecode : Prop :=
  decode 0x00060001 = .ok (.config 0 6) ∧ decode 0x00080101 = .ok (.config 1 8) ∧
  decode 0x00FF0101 = .ok (.config 1 255) ∧ decode 0x00000002 = .ok .b32dec ∧ decode 0x00000003 = .ok .b32enc ∧
  decode 0x00000004 = .ok .otp ∧ decode 0x00000005 = .ok .clear ∧
  decode 0x00000000 = .error .opcode ∧ decode 0x00000006 = .error .opcode ∧
  decode 0x01060001 = .error .reserved ∧ decode 0x00000104 = .error .arguments

/-! ### The completion step -/

/-- R212: while BUSY = 1 the engine's move is the decoded command's completion step. -/
def Obligations.EngineRunsTheDecodedCommand : Prop :=
  ∀ (s : State) (i : Instr), s.status.busy = true → decode s.lcmd = .ok i →
    (s.schedule = [] → step s = exec i s) ∧
    (∀ rest, s.schedule = .engine :: rest → step s = exec i { s with schedule := rest })

/-- How the host's checks run a command: the word placed is the very next command (the model's convention, log 6). -/
def Obligations.PlacedWordRunsNext : Prop :=
  ∀ (s : State) (i : Instr), step (s.withFetchWord 32 (encode i).toNat) = exec i (s.accept (encode i))

/-- R215: an illegal word completes with IllegalCommand, code 3, and changes STATUS, OBUF and OLEN alone. -/
def Obligations.IllegalWordRaisesIllegalCommand : Prop :=
  ∀ (s : State) (e : IllegalWord), s.status.busy = true → decode s.lcmd = .error e →
    (s.schedule = [] → step s = .next (s.failedWithCode 3)) ∧
    (∀ rest, s.schedule = .engine :: rest → step s = .next { s.failedWithCode 3 with schedule := rest })

/-- R212: while BUSY = 0 the engine has no step. That its turn then passes with nothing changed is the model's choice
(log 7). -/
def Obligations.IdleEngineChangesNothing : Prop :=
  ∀ s : State, s.status.busy = false →
    (s.schedule = [] → step s = .next s) ∧
    (∀ rest, s.schedule = .engine :: rest → step s = .next { s with schedule := rest })

/-- R31: what holds after the completion step of any command, an illegal word's among them. -/
def Obligations.CompletionLeavesStatusConsistent : Prop :=
  (∀ (i : Instr) (s t : State), exec i s = .next t → t.Completed) ∧
  ∀ s t : State, s.status.busy = true → s.engineMoves = true → step s = .next t → t.Completed

/-- R255: which error codes each command can end with. -/
def Obligations.EachCommandRaisesOnlyItsErrors : Prop :=
  ∀ (s t : State),
    (∀ alg codelen, exec (.config alg codelen) s = .next t →
      t.status.errcode = 0 ∨ t.status.errcode = 6 ∨ t.status.errcode = 1) ∧
    (exec .b32dec s = .next t → t.status.errcode = 0 ∨ t.status.errcode = 4 ∨ t.status.errcode = 2) ∧
    (exec .b32enc s = .next t → t.status.errcode = 0 ∨ t.status.errcode = 4) ∧
    (exec .otp s = .next t → t.status.errcode = 0 ∨ t.status.errcode = 5 ∨ t.status.errcode = 4) ∧
    (exec .clear s = .next t → t.status.errcode = 0)

/-- R256: a command that raises an error is all-or-nothing, and one that raises nothing ends with STATUS saying so. -/
def Obligations.CommandsAreAllOrNothing : Prop :=
  ∀ (i : Instr) (s t : State), exec i s = .next t →
    (t.status.err = true ∧ ∃ e : ErrorName, t = s.failedWith e) ∨
    (t.status.err = false ∧ t.status.errcode = 0 ∧ t.status.busy = false ∧ t.status.done = true)

/-- R46: CONFIG, B32DEC, B32ENC and OTP write no operand register and no IBUF byte; only CONFIG writes CFG and CFGV. -/
def Obligations.CommandsButClearKeepTheirOperands : Prop :=
  ∀ (i : Instr) (s t : State), i ≠ .clear → exec i s = .next t →
    t.ilen = s.ilen ∧ t.tstepLo = s.tstepLo ∧ t.tstepHi = s.tstepHi ∧ t.lcmd = s.lcmd ∧
    (∀ a, t.ibuf.read a = s.ibuf.read a) ∧
    ((∀ alg codelen, i ≠ .config alg codelen) → t.cfg = s.cfg ∧ t.status.cfgv = s.status.cfgv) ∧
    t.schedule = s.schedule ∧ t.responses = s.responses ∧ t.draws = s.draws

/-- R43, R44: every result fits OBUF (160 bytes from B32DEC, 416 from B32ENC, 255 from OTP at most), and the bytes behind
it are 0x00. -/
def Obligations.ResultsFitTheOutputBuffer : Prop :=
  ∀ (i : Instr) (s t : State), exec i s = .next t →
    t.olen.toNat ≤ 416 ∧ (i = .b32dec → t.olen.toNat ≤ 160) ∧ (i = .otp → t.olen.toNat ≤ 255) ∧
    t.obuf.wf ∧ t.obuf.within 416 ∧ ∀ a, t.olen.toNat ≤ a → t.obuf.read a = 0

/-! ### CONFIG and CLEAR -/

/-- R180, R181: every outcome of CONFIG, with the codes of R254 (ConfigLocked 6, ConfigurationError 1). -/
def Obligations.ConfigOutcomes : Prop :=
  ∀ (s : State) (alg codelen : Byte),
    (s.status.cfgv = true → exec (.config alg codelen) s = .next (s.failedWithCode 6)) ∧
    (s.status.cfgv = false → (2 ≤ alg.toNat ∨ codelen.toNat < 6) →
      exec (.config alg codelen) s = .next (s.failedWithCode 1)) ∧
    (s.status.cfgv = false → alg.toNat ≤ 1 → 6 ≤ codelen.toNat →
      exec (.config alg codelen) s = .next { s with
        obuf := [], olen := 0
        cfg := { alg := if alg = 0 then .sha1 else .sha256, codelen := codelen }
        status := { busy := false, done := true, err := false, errcode := 0, cfgv := true } })

/-- R214: CLEAR completes from every state without an error, zeroises the operands and the result, and keeps the
configuration. -/
def Obligations.ClearZeroisesOperandsAndResult : Prop :=
  ∀ s : State, ∃ t, exec .clear s = .next t ∧
    (∀ a, t.ibuf.read a = 0 ∧ t.obuf.read a = 0) ∧ t.ilen = 0 ∧ t.olen = 0 ∧ t.tstepLo = 0 ∧ t.tstepHi = 0 ∧
    t.cfg = s.cfg ∧
    t.status = { busy := false, done := true, err := false, errcode := 0, cfgv := s.status.cfgv } ∧
    t.lcmd = s.lcmd ∧ t.schedule = s.schedule ∧ t.responses = s.responses ∧ t.draws = s.draws

/-! ### The codec -/

/-- R114, R258: every outcome of B32DEC, with the codes of R254 (LengthError 4, DecodeFailure 2). -/
def Obligations.Base32DecodeOutcomes : Prop :=
  ∀ s : State,
    (256 < s.ilen.toNat → exec .b32dec s = .next (s.failedWithCode 4)) ∧
    (s.ilen.toNat ≤ 256 → ∀ e, b32decode (s.ibuf.readBytes s.ilen.toNat) = .error e →
      exec .b32dec s = .next (s.failedWithCode 2)) ∧
    (s.ilen.toNat ≤ 256 → ∀ bytes, b32decode (s.ibuf.readBytes s.ilen.toNat) = .ok bytes →
      ∃ t, exec .b32dec s = .next t ∧ Delivers s t bytes)

/-- R124, R258: every outcome of B32ENC, with the code of R254 (LengthError 4). -/
def Obligations.Base32EncodeOutcomes : Prop :=
  ∀ s : State,
    (256 < s.ilen.toNat → exec .b32enc s = .next (s.failedWithCode 4)) ∧
    (s.ilen.toNat ≤ 256 →
      ∃ t, exec .b32enc s = .next t ∧ Delivers s t (b32encode (s.ibuf.readBytes s.ilen.toNat)))

/-- R111, R112: the value of every symbol (`A` is 0 to `Z` 25, `2` is 26 to `7` 31), that no other byte has one, and that
the symbol map and the value map are inverse. -/
def Obligations.SymbolMapsAreInverse : Prop :=
  (∀ (c : Byte) (v : BitVec 5), b32val c = some v ↔
    (0x41 ≤ c.toNat ∧ c.toNat ≤ 0x5A ∧ v.toNat = c.toNat - 0x41) ∨
    (0x32 ≤ c.toNat ∧ c.toNat ≤ 0x37 ∧ v.toNat = c.toNat - 0x32 + 26)) ∧
  (∀ v : BitVec 5, b32val (b32sym v) = some v) ∧ ∀ (c : Byte) (v : BitVec 5), b32val c = some v → b32sym v = c

/-- R115, R116: the texts the decoder accepts (R117 and R111 give the symbols), and its one error. -/
def Obligations.DecoderAcceptsExactly : Prop :=
  ∀ t : List Byte,
    ((∃ out, b32decode t = .ok out) ↔
      (t.count 0x3D = 0 ∨ t.count 0x3D = 1 ∨ t.count 0x3D = 3 ∨ t.count 0x3D = 4 ∨ t.count 0x3D = 6) ∧
      (∀ i, t[i]? = some 0x3D → t.length - t.count 0x3D ≤ i) ∧
      (∀ c ∈ t, c ≠ 0x3D → (0x41 ≤ c.toNat ∧ c.toNat ≤ 0x5A) ∨ (0x32 ≤ c.toNat ∧ c.toNat ≤ 0x37))) ∧
    ∀ e, b32decode t = .error e → e = .decodeFailure

/-- R118, last form: the decoded bytes are the big-endian representation of the symbols' base-32 number without its
discarded low bits. -/
def Obligations.DecodedBytesAsOneNumber : Prop :=
  ∀ t out : List Byte, b32decode t = .ok out →
    ∃ values : List (BitVec 5), (t.filter (· != 0x3D)).mapM b32val = some values ∧
      out.length = 5 * values.length / 8 ∧
      beNat out =
        values.foldl (fun acc v => acc * 32 + v.toNat) 0 / 2 ^ (5 * values.length - 8 * out.length)

/-- R127: decoding an encoded byte string gives it back, at every length. -/
def Obligations.EncodeThenDecodeIsIdentity : Prop := ∀ b : List Byte, b32decode (b32encode b) = .ok b

/-- R125: the encoded text is `q = ceil(8k / 5)` symbols and then `=` characters, and the symbols' base-32 number is the
bytes' number with `5q - 8k` zero bits appended; R126: its length and the number of `=` it ends with. -/
def Obligations.EncodedLengthAndPadding : Prop :=
  ∀ b : List Byte,
    (∃ (values : List (BitVec 5)) (r : Nat), values.length = (8 * b.length + 4) / 5 ∧
      b32encode b = values.map b32sym ++ List.replicate r 0x3D ∧
      values.foldl (fun acc v => acc * 32 + v.toNat) 0 = beNat b * 2 ^ (5 * values.length - 8 * b.length)) ∧
    (b32encode b).length = 8 * ((b.length + 4) / 5) ∧
    (b32encode b).count 0x3D =
      (if b.length % 5 = 0 then 0 else if b.length % 5 = 1 then 6 else if b.length % 5 = 2 then 4
       else if b.length % 5 = 3 then 3 else 1)

/-! ### The OTP engine -/

/-- R184, R185, R258: every outcome of OTP, with the codes of R254 (NotConfigured 5, LengthError 4). -/
def Obligations.OtpOutcomes : Prop :=
  ∀ s : State,
    (s.status.cfgv = false → exec .otp s = .next (s.failedWithCode 5)) ∧
    (s.status.cfgv = true → 256 < s.ilen.toNat → exec .otp s = .next (s.failedWithCode 4)) ∧
    (s.status.cfgv = true → s.ilen.toNat ≤ 256 →
      ∃ t, exec .otp s = .next t ∧
        Delivers s t (computeCode s.cfg.alg s.cfg.codelen.toNat (s.ibuf.readBytes s.ilen.toNat) s.tstepLo) ∧
        t.olen.toNat = s.cfg.codelen.toNat)

/-- R186: the key of OTP is the decoded secret, and the empty string where the secret is malformed, which raises
nothing. -/
def Obligations.MalformedSecretActsAsEmptyKey : Prop :=
  ∀ (s : State) (key : List Byte), s.status.cfgv = true → s.ilen.toNat ≤ 256 →
    (b32decode (s.ibuf.readBytes s.ilen.toNat) = .ok key ∨
      (b32decode (s.ibuf.readBytes s.ilen.toNat) = .error .decodeFailure ∧ key = [])) →
    ∃ t, exec .otp s = .next t ∧ t.status.err = false ∧ t.status.errcode = 0 ∧
      t.result = renderCode s.cfg.codelen.toNat
        (truncateMac (hmac s.cfg.alg key (messageOf s.tstepLo)) % 10 ^ s.cfg.codelen.toNat)

/-- R194, R38: the result of OTP depends on CFG, CFGV, ILEN, TSTEP_LO and IBUF[0..ILEN) alone. -/
def Obligations.OtpDependsOnItsOperandsOnly : Prop :=
  ∀ s s' : State, s.cfg = s'.cfg → s.status.cfgv = s'.status.cfgv → s.ilen = s'.ilen → s.tstepLo = s'.tstepLo →
    (∀ i, i < s.ilen.toNat → s.ibuf.read i = s'.ibuf.read i) →
    ∃ t t' : State, exec .otp s = .next t ∧ exec .otp s' = .next t' ∧
      t.status = t'.status ∧ t.olen = t'.olen ∧ t.obuf = t'.obuf

/-- R143: the padded message, its length and its length field. -/
def Obligations.PaddedMessageShape : Prop :=
  ∀ m : List Byte, m.length < 2 ^ 61 →
    (hashPad m).length = 64 * ((m.length + 8) / 64 + 1) ∧
    ∃ (k : Nat) (field : List Byte), k < 64 ∧ hashPad m = m ++ [0x80] ++ List.replicate k 0 ++ field ∧
      field.length = 8 ∧ beNat field = 8 * m.length

/-- R141, R156: digest and MAC lengths. -/
def Obligations.DigestAndMacLengths : Prop :=
  ∀ (key m : List Byte), (sha1 m).length = 20 ∧ (sha256 m).length = 32 ∧
    (hmac .sha1 key m).length = 20 ∧ (hmac .sha256 key m).length = 32

/-- R158, first sentence: zero bytes appended to a short key do not change the MAC. -/
def Obligations.ZeroPaddedKeyGivesSameMac : Prop :=
  ∀ (alg : HashAlg) (key msg : List Byte) (n : Nat), key.length + n ≤ 64 →
    hmac alg (key ++ List.replicate n 0) msg = hmac alg key msg

/-- R189, R190: the selected bytes lie inside the MAC, and `dbc` is their big-endian number with bit 31 cleared. -/
def Obligations.TruncationSelectsInsideTheMac : Prop :=
  ∀ mac : List Byte, 20 ≤ mac.length →
    ∃ (offset : Nat) (last b0 b1 b2 b3 : Byte), mac[mac.length - 1]? = some last ∧ offset = last.toNat % 16 ∧
      offset + 3 ≤ 18 ∧
      mac[offset]? = some b0 ∧ mac[offset + 1]? = some b1 ∧ mac[offset + 2]? = some b2 ∧ mac[offset + 3]? = some b3 ∧
      truncateMac mac = (b0.toNat * 2 ^ 24 + b1.toNat * 2 ^ 16 + b2.toNat * 2 ^ 8 + b3.toNat) % 2 ^ 31

/-- R191, R192: a code has exactly CODELEN ASCII digits and is the decimal representation of `dbc mod 10^CODELEN`.
Outside R196's ranges of codelen and secret this is the model's choice (log 22). -/
def Obligations.CodeIsTheDecimalValue : Prop :=
  ∀ (alg : HashAlg) (codelen : Nat) (secret : List Byte) (tstep : Word),
    let code := computeCode alg codelen secret tstep
    code.length = codelen ∧ (∀ c ∈ code, 0x30 ≤ c.toNat ∧ c.toNat ≤ 0x39) ∧
    code.foldl (fun acc c => acc * 10 + (c.toNat - 0x30)) 0 =
      truncateMac (hmac alg (keyOf secret) ([0, 0, 0, 0] ++ tobe32 tstep)) % 10 ^ codelen

/-- R193: a code of 10 or more digits is the 10-digit code behind zeros. Outside R196's ranges of codelen and secret
this is the model's choice (log 22). -/
def Obligations.LongCodesAreZeroExtended : Prop :=
  ∀ (alg : HashAlg) (codelen : Nat) (secret : List Byte) (tstep : Word), 10 ≤ codelen →
    computeCode alg codelen secret tstep =
      List.replicate (codelen - 10) 0x30 ++ computeCode alg 10 secret tstep

/-- R187: the message is 8 bytes, four zero bytes and the time-step, which is its big-endian number. -/
def Obligations.MessageIsTheTimeStep : Prop :=
  ∀ tstep : Word, (messageOf tstep).length = 8 ∧ (messageOf tstep).take 4 = [0, 0, 0, 0] ∧
    beNat (messageOf tstep) = tstep.toNat

/-! ### The host procedures -/

/-- R228: the functional result of the constant-time comparison is equality. -/
def Obligations.ConstantTimeCompareIsEquality : Prop :=
  ∀ a b : List Byte, timingSafeEquals a b = true ↔ a = b

/-- R223, R225, R226: the verifier accepts exactly the codes of the window. For a secret longer than 256 bytes this is the
model's choice (log 22). -/
def Obligations.VerifierAcceptsExactlyTheWindow : Prop :=
  ∀ (alg : HashAlg) (codelen clock : Nat) (secret candidate : List Byte) (discrepancy reference : Nat),
    verifyCode alg codelen clock secret candidate discrepancy reference = true ↔
      candidate.length = codelen ∧
      ∃ offset : Int, -(discrepancy : Int) ≤ offset ∧ offset ≤ discrepancy ∧
        computeCode alg codelen secret (BitVec.ofInt 32 (reference + offset)) = candidate

/-- R227: the verifier accepts the code of the time-step itself, whatever the secret. For a secret longer than 256 bytes
this is the model's choice (log 22). -/
def Obligations.VerifierAcceptsOwnCode : Prop :=
  ∀ (alg : HashAlg) (codelen clock : Nat) (secret : List Byte) (now : Nat),
    verifyCode alg codelen clock secret (computeCode alg codelen secret (BitVec.ofNat 32 now)) 0 now = true

/-- R229 to R231: what the secret generator returns and when it fails. Which error comes first where both hold is the
model's choice (log 14) and is not stated. -/
def Obligations.GeneratedSecretShape : Prop :=
  ∀ (random : Nat → Byte) (length : Nat),
    (16 ≤ length → length ≤ 128 →
      createSecret none length = .error .randomnessUnavailable ∧
      ∃ secret, createSecret (some random) length = .ok secret ∧ secret.length = length ∧
        ∀ i, i < length → ∃ c v, secret[i]? = some c ∧ b32val c = some v ∧ v.toNat = (random i).toNat % 32) ∧
    (length < 16 ∨ 128 < length → createSecret (some random) length = .error .rangeError)

/-- R232: a generated secret decodes, to `floor(5 * length / 8)` bytes. -/
def Obligations.GeneratedSecretDecodes : Prop :=
  ∀ (random : Nat → Byte) (length : Nat) (secret : List Byte), createSecret (some random) length = .ok secret →
    ∃ key, b32decode secret = .ok key ∧ key.length = 5 * length / 8

/-- R221: on an idle, configured block the host's load, TSTEP, OTP and WAIT end with the code of the secret and the
time-step modulo 2^32 as the block's result and no error. The premises are the invariant and the ranges of the rule. The
engine's delay is the poll count of WAIT (the model's choice, log 11). -/
def Obligations.HostSequenceComputesTheCode : Prop :=
  ∀ (s : State) (secret : List Byte) (timeStep polls : Nat) (rest : List Event), s.Inv →
    s.status.busy = false → s.status.cfgv = true → secret.length ≤ 256 →
    s.schedule = expandScript (computeCodeScript secret timeStep polls) ++ rest →
    ∃ (n : Nat) (t : State), s.runsTo n t ∧ t.schedule = rest ∧ t.status.busy = false ∧ t.status.err = false ∧
      t.result = computeCode s.cfg.alg s.cfg.codelen.toNat secret (BitVec.ofNat 32 (timeStep % 2 ^ 32))

/-- R222, R220: called without a discrepancy and a reference, the verifier accepts exactly the codes of the three
time-steps around the current one, `floor(clock / 30)`. For a secret longer than 256 bytes this is the model's choice
(log 22). -/
def Obligations.VerifierDefaultsAreOneStepAroundNow : Prop :=
  ∀ (alg : HashAlg) (codelen clock : Nat) (secret candidate : List Byte),
    verifyCode alg codelen clock secret candidate = true ↔
      candidate.length = codelen ∧
      ∃ offset : Int, (offset = -1 ∨ offset = 0 ∨ offset = 1) ∧
        computeCode alg codelen secret (BitVec.ofInt 32 ((clock / 30 : Nat) + offset)) = candidate
end

