-- ==== Sys2Proof/Laws/Bits.lean ====
section
/-! SUPPORT. Bit strings, byte strings and slices as numbers and back. -/

namespace Sys2Proof.Machine

/-! ### Bit strings -/

theorem bitsNat_foldl (l : List Bool) (a : Nat) :
    l.foldl (fun acc x => acc * 2 + x.toNat) a = a * 2 ^ l.length + bitsNat l := by
  induction l generalizing a with
  | nil => simp [bitsNat]
  | cons x l ih =>
    have h0 : bitsNat (x :: l) = (0 * 2 + x.toNat) * 2 ^ l.length + bitsNat l := ih _
    rw [List.foldl_cons, ih, h0, List.length_cons, Nat.pow_succ]
    ring

theorem bitsNat_cons (x : Bool) (l : List Bool) : bitsNat (x :: l) = x.toNat * 2 ^ l.length + bitsNat l := by
  rw [bitsNat, List.foldl_cons, bitsNat_foldl]; simp

theorem bitsNat_append (a b : List Bool) : bitsNat (a ++ b) = bitsNat a * 2 ^ b.length + bitsNat b := by
  rw [bitsNat, List.foldl_append, bitsNat_foldl]; rfl

theorem bitsNat_lt (l : List Bool) : bitsNat l < 2 ^ l.length := by
  induction l with
  | nil => simp [bitsNat]
  | cons x l ih =>
    have : x.toNat ≤ 1 := x.toNat_le
    rw [bitsNat_cons, List.length_cons, Nat.pow_succ]
    nlinarith

@[simp] theorem bitsMsb_length (k v : Nat) : (bitsMsb k v).length = k := by
  induction k with
  | zero => rfl
  | succ k ih => simp [bitsMsb, ih]

theorem bitsNat_bitsMsb (k v : Nat) : bitsNat (bitsMsb k v) = v % 2 ^ k := by
  induction k with
  | zero => simp [bitsMsb, bitsNat, Nat.mod_one]
  | succ k ih =>
    rw [bitsMsb, bitsNat_cons, ih, bitsMsb_length, Nat.mod_pow_succ, Nat.toNat_testBit]
    ring

theorem bitsMsb_mod (k v : Nat) : bitsMsb k (v % 2 ^ k) = bitsMsb k v := by
  suffices ∀ j, j ≤ k → bitsMsb j (v % 2 ^ k) = bitsMsb j v from this k le_rfl
  intro j
  induction j with
  | zero => intro _; rfl
  | succ j ih =>
    intro h
    rw [bitsMsb, bitsMsb, ih (by omega), Nat.testBit_mod_two_pow, decide_eq_true (by omega : j < k), Bool.true_and]

theorem bitsNat_inj {a b : List Bool} (hl : a.length = b.length) (h : bitsNat a = bitsNat b) : a = b := by
  induction a generalizing b with
  | nil => exact (List.length_eq_zero_iff.1 hl.symm).symm
  | cons x a ih =>
    cases b with
    | nil => simp at hl
    | cons y b =>
      have hl' : a.length = b.length := by simpa using hl
      rw [bitsNat_cons, bitsNat_cons, hl'] at h
      have h1 := bitsNat_lt a
      have h2 := bitsNat_lt b
      rw [hl'] at h1
      have hxy : x = y := by
        cases x <;> cases y <;> simp at h ⊢ <;> omega
      subst hxy
      rw [ih hl' (by omega)]

/-- A bit string is the bits of its own number. -/
theorem bitsMsb_bitsNat {k : Nat} {l : List Bool} (h : l.length = k) : bitsMsb k (bitsNat l) = l := by
  apply bitsNat_inj (by simp [h])
  rw [bitsNat_bitsMsb, Nat.mod_eq_of_lt (h ▸ bitsNat_lt l)]

@[simp] theorem bitsOf_length (b : List Byte) : (bitsOf b).length = 8 * b.length := by
  simp [bitsOf, List.length_flatMap, Nat.mul_comm]

/-! ### Byte strings -/

theorem beNat_foldl (l : List Byte) (a : Nat) :
    l.foldl (fun acc x => acc * 256 + x.toNat) a = a * 256 ^ l.length + beNat l := by
  induction l generalizing a with
  | nil => simp [beNat]
  | cons x l ih =>
    have h0 : beNat (x :: l) = (0 * 256 + x.toNat) * 256 ^ l.length + beNat l := ih _
    rw [List.foldl_cons, ih, h0, List.length_cons, Nat.pow_succ]
    ring

theorem beNat_cons (x : Byte) (l : List Byte) : beNat (x :: l) = x.toNat * 256 ^ l.length + beNat l := by
  rw [beNat, List.foldl_cons, beNat_foldl]; simp

theorem beNat_append (a b : List Byte) : beNat (a ++ b) = beNat a * 256 ^ b.length + beNat b := by
  rw [beNat, List.foldl_append, beNat_foldl]; rfl

theorem beNat_lt (l : List Byte) : beNat l < 256 ^ l.length := by
  induction l with
  | nil => simp [beNat]
  | cons x l ih =>
    have : x.toNat < 256 := x.isLt
    rw [beNat_cons, List.length_cons, Nat.pow_succ]
    nlinarith

theorem beNat_bitsOf (b : List Byte) : beNat b = bitsNat (bitsOf b) := by
  induction b with
  | nil => rfl
  | cons x b ih =>
    have hx : bitsOf (x :: b) = bitsMsb 8 x.toNat ++ bitsOf b := rfl
    rw [beNat_cons, hx, bitsNat_append, bitsNat_bitsMsb, ih, bitsOf_length, Nat.mod_eq_of_lt x.isLt, pow_mul,
      show (2 : Nat) ^ 8 = 256 from rfl]

@[simp] theorem toBytesBE_length (k v : Nat) : (toBytesBE k v).length = k := by simp [toBytesBE]

theorem toBytesBE_succ (k v : Nat) : toBytesBE (k + 1) v = BitVec.ofNat 8 (v / 256 ^ k) :: toBytesBE k v := by
  rw [toBytesBE, List.range_succ_eq_map, List.map_cons, List.map_map, toBytesBE]
  congr 1
  apply List.map_congr_left
  intro i _
  simp only [Function.comp_apply, Nat.add_sub_cancel]
  rw [show k - Nat.succ i = k - 1 - i by omega]

theorem beNat_toBytesBE (k v : Nat) : beNat (toBytesBE k v) = v % 256 ^ k := by
  induction k with
  | zero => simp [toBytesBE, beNat, Nat.mod_one]
  | succ k ih =>
    rw [toBytesBE_succ, beNat_cons, ih, toBytesBE_length, BitVec.toNat_ofNat, show (2 : Nat) ^ 8 = 256 from rfl,
      Nat.mod_pow_succ]
    ring

@[simp] theorem tobe32_length (v : Word) : (tobe32 v).length = 4 := toBytesBE_length 4 _

theorem beNat_tobe32 (v : Word) : beNat (tobe32 v) = v.toNat := by
  rw [tobe32, beNat_toBytesBE]
  exact Nat.mod_eq_of_lt (by have := v.isLt; omega)

/-! ### Slices -/

@[simp] theorem slices_length {α : Type} (k m : Nat) (l : List α) : (slices k m l).length = m := by
  induction m generalizing l with
  | zero => rfl
  | succ m ih => simp [slices, ih]

theorem slices_flatten {α : Type} (k m : Nat) (l : List α) : (slices k m l).flatten = l.take (k * m) := by
  induction m generalizing l with
  | zero => simp [slices]
  | succ m ih =>
    rw [slices, List.flatten_cons, ih, Nat.mul_succ, Nat.add_comm, List.take_add]

/-- Every slice inside the list has `k` elements. -/
theorem slices_mem_length {α : Type} {k m : Nat} {l : List α} (h : k * m ≤ l.length) :
    ∀ g ∈ slices k m l, g.length = k := by
  induction m generalizing l with
  | zero => simp [slices]
  | succ m ih =>
    rw [Nat.mul_succ] at h
    intro g hg
    rw [slices, List.mem_cons] at hg
    rcases hg with rfl | hg
    · rw [List.length_take]; omega
    · exact ih (by rw [List.length_drop]; omega) g hg

/-- Slicing reads the first `k * m` elements alone. -/
theorem slices_append {α : Type} {k m : Nat} {a b : List α} (h : k * m ≤ a.length) :
    slices k m (a ++ b) = slices k m a := by
  induction m generalizing a with
  | zero => rfl
  | succ m ih =>
    rw [Nat.mul_succ] at h
    rw [slices, slices, List.take_append_of_le_length (by omega), List.drop_append_of_le_length (by omega),
      ih (by rw [List.length_drop]; omega)]

/-- Slicing a list made of `k`-element pieces gives the pieces back. -/
theorem slices_flatMap {α β : Type} {k : Nat} (f : β → List α) (l : List β) (h : ∀ x ∈ l, (f x).length = k) :
    slices k l.length (l.flatMap f) = l.map f := by
  induction l with
  | nil => rfl
  | cons x l ih =>
    obtain ⟨hx, hl⟩ := List.forall_mem_cons.1 h
    rw [List.length_cons, slices, List.flatMap_cons, List.map_cons, List.take_left' hx, List.drop_left' hx, ih hl]

end Sys2Proof.Machine
end

