-- ==== Sys2Proof/Laws/Base32.lean ====
section
/-! SUPPORT. Facts about the alphabet, and the shape of what the encoder writes and the decoder reads. -/

namespace Sys2Proof.Machine

/-- The bytes that have a value are the alphabet's (R111, R113). -/
theorem b32val_isSome (c : Byte) :
    (b32val c).isSome = true ↔ (0x41 ≤ c.toNat ∧ c.toNat ≤ 0x5A) ∨ (0x32 ≤ c.toNat ∧ c.toNat ≤ 0x37) := by
  rw [b32val]
  split
  · simp_all
  · split <;> simp_all

theorem b32val_padChar : b32val padChar = none := by decide

/-- No symbol is the padding character. -/
theorem b32sym_ne_padChar : ∀ v : BitVec 5, b32sym v ≠ padChar := by decide

theorem mapM_cons_some {α β : Type} {f : α → Option β} {a : α} {l : List α} {out : List β} :
    (a :: l).mapM f = some out ↔ ∃ b bs, f a = some b ∧ l.mapM f = some bs ∧ out = b :: bs := by
  rw [List.mapM_cons]
  cases f a with
  | none => simp
  | some b =>
    cases l.mapM f with
    | none => simp
    | some bs => simp [eq_comm]

/-- Reading a list byte by byte succeeds when every byte has a value. -/
theorem mapM_isSome {α β : Type} {f : α → Option β} {l : List α} :
    (∃ out, l.mapM f = some out) ↔ ∀ a ∈ l, (f a).isSome = true := by
  induction l with
  | nil => simp
  | cons a l ih =>
    rw [List.forall_mem_cons, ← ih]
    constructor
    · rintro ⟨out, h⟩
      obtain ⟨b, bs, hb, hbs, -⟩ := mapM_cons_some.1 h
      exact ⟨by simp [hb], bs, hbs⟩
    · rintro ⟨h, bs, hbs⟩
      obtain ⟨b, hb⟩ := Option.isSome_iff_exists.1 h
      exact ⟨b :: bs, mapM_cons_some.2 ⟨b, bs, hb, hbs, rfl⟩⟩

theorem mapM_length {α β : Type} {f : α → Option β} {l : List α} {out : List β} (h : l.mapM f = some out) :
    out.length = l.length := by
  induction l generalizing out with
  | nil => simp_all
  | cons a l ih =>
    obtain ⟨b, bs, -, hbs, rfl⟩ := mapM_cons_some.1 h
    simp [ih hbs]

/-- Reading back a list of images. -/
theorem mapM_map_inverse {α β : Type} {f : α → Option β} {g : β → α} (h : ∀ b, f (g b) = some b) (l : List β) :
    (l.map g).mapM f = some l := by
  induction l with
  | nil => rfl
  | cons b l ih => exact mapM_cons_some.2 ⟨b, l, h b, ih, rfl⟩

/-! ### The decoder -/

theorem padCount_le (t : List Byte) : padCount t ≤ t.length := List.count_le_length

theorem legalPadCount_iff (p : Nat) : legalPadCount p = true ↔ p = 0 ∨ p = 1 ∨ p = 3 ∨ p = 4 ∨ p = 6 := by
  simp [legalPadCount]

/-- What the decoder answers, in one place: it succeeds exactly when its three checks do (R120). -/
theorem b32decode_eq_ok {t out : List Byte} :
    b32decode t = .ok out ↔
      legalPadCount (padCount t) = true ∧ padAtEnd t = true ∧
      ∃ values, (symbolsOf t).mapM b32val = some values ∧ out = bytesOfValues values := by
  rw [b32decode]
  cases h1 : legalPadCount (padCount t) <;> cases h2 : padAtEnd t <;>
    cases h3 : (symbolsOf t).mapM b32val <;> simp [eq_comm]

/-- Every failure of the decoder is DecodeFailure (R120). -/
theorem b32decode_error {t : List Byte} {e : ErrorName} (h : b32decode t = .error e) : e = .decodeFailure := by
  rw [b32decode] at h
  split at h
  · cases h; rfl
  · split at h
    · cases h; rfl
    · split at h
      · cases h; rfl
      · cases h

/-- R118: the number of decoded bytes. -/
@[simp] theorem bytesOfValues_length (values : List (BitVec 5)) :
    (bytesOfValues values).length = 5 * values.length / 8 := by
  simp [bytesOfValues]

/-- The bits of 5-bit values. -/
theorem length_valueBits (values : List (BitVec 5)) :
    (values.flatMap fun v => bitsMsb 5 v.toNat).length = 5 * values.length := by
  simp [List.length_flatMap, Nat.mul_comm]

/-- A decoded text is no longer than its symbols allow. -/
theorem b32decode_length {t out : List Byte} (h : b32decode t = .ok out) : out.length ≤ 5 * t.length / 8 := by
  obtain ⟨-, -, values, hv, rfl⟩ := b32decode_eq_ok.1 h
  have hl := mapM_length hv
  have hs : (symbolsOf t).length ≤ t.length := by rw [symbolsOf, List.length_take]; omega
  rw [bytesOfValues_length]
  omega

/-- A text of symbols with `p` padding characters behind it decodes to the bytes of its values. -/
theorem b32decode_symbols (values : List (BitVec 5)) {p : Nat} (hp : legalPadCount p = true) :
    b32decode (values.map b32sym ++ List.replicate p padChar) = .ok (bytesOfValues values) := by
  have hno : (values.map b32sym).count padChar = 0 := by
    rw [List.count_eq_zero]
    intro h
    obtain ⟨v, -, hv⟩ := List.mem_map.1 h
    exact b32sym_ne_padChar v hv
  have hcount : padCount (values.map b32sym ++ List.replicate p padChar) = p := by
    rw [padCount, List.count_append, hno, List.count_replicate_self, Nat.zero_add]
  have hlen : (values.map b32sym ++ List.replicate p padChar).length - p = (values.map b32sym).length := by
    rw [List.length_append, List.length_replicate]; omega
  refine b32decode_eq_ok.2 ⟨by rw [hcount, hp], ?_, values, ?_, rfl⟩
  · rw [padAtEnd, hcount, hlen, List.drop_left']
    · simp
    · rfl
  · rw [symbolsOf, hcount, hlen, List.take_left' rfl]
    exact mapM_map_inverse (by decide) values

/-! ### The encoder -/

theorem symbolCount_bits (k : Nat) : 8 * k ≤ 5 * symbolCount k ∧ 5 * symbolCount k ≤ 8 * k + 4 := by
  simp only [symbolCount]; omega

/-- The values the encoder writes as symbols (R125). -/
def encodedValues (b : List Byte) : List (BitVec 5) :=
  (slices 5 (symbolCount b.length)
    (bitsOf b ++ List.replicate (5 * symbolCount b.length - 8 * b.length) false)).map
      fun g => BitVec.ofNat 5 (bitsNat g)

/-- The encoder writes symbols and then padding characters. -/
theorem b32encode_eq (b : List Byte) :
    b32encode b = (encodedValues b).map b32sym ++
      List.replicate ((8 - symbolCount b.length % 8) % 8) padChar := by
  simp [b32encode, encodedValues, Function.comp_def]

@[simp] theorem encodedValues_length (b : List Byte) : (encodedValues b).length = symbolCount b.length := by
  simp [encodedValues]

/-- The bits of the encoded values are the bits of the bytes and the appended zeros. -/
theorem encodedValues_bits (b : List Byte) :
    ((encodedValues b).flatMap fun v => bitsMsb 5 v.toNat) =
      bitsOf b ++ List.replicate (5 * symbolCount b.length - 8 * b.length) false := by
  have hb := symbolCount_bits b.length
  have hlen : (bitsOf b ++ List.replicate (5 * symbolCount b.length - 8 * b.length) false).length =
      5 * symbolCount b.length := by
    rw [List.length_append, bitsOf_length, List.length_replicate]; omega
  rw [encodedValues, List.flatMap_map]
  have hid : ∀ g ∈ slices 5 (symbolCount b.length)
      (bitsOf b ++ List.replicate (5 * symbolCount b.length - 8 * b.length) false),
      bitsMsb 5 (BitVec.ofNat 5 (bitsNat g)).toNat = g := by
    intro g hg
    rw [BitVec.toNat_ofNat, bitsMsb_mod, bitsMsb_bitsNat (slices_mem_length (by omega) g hg)]
  rw [List.flatMap_congr hid, List.flatMap_id', slices_flatten, List.take_of_length_le (by omega)]

end Sys2Proof.Machine
end

