-- ==== Sys2Proof/Laws/Code.lean ====
section
/-! SUPPORT. Lengths of digests, MACs and codes, and how a code is built digit by digit. -/

namespace Sys2Proof.Machine

@[simp] theorem sha1_length (m : List Byte) : (sha1 m).length = 20 := by
  simp [sha1]

@[simp] theorem sha256_length (m : List Byte) : (sha256 m).length = 32 := by
  simp [sha256]

@[simp] theorem hash_length (alg : HashAlg) (m : List Byte) : (hash alg m).length = macBytes alg := by
  cases alg <;> simp [hash, macBytes]

@[simp] theorem hmac_length (alg : HashAlg) (key msg : List Byte) : (hmac alg key msg).length = macBytes alg := by
  simp [hmac]

/-- The zero bytes `pad(m)` inserts fill the last block up to its length field (R143). -/
theorem hashPad_zeros (l : Nat) : (64 + 55 - l % 64) % 64 < 64 ∧
    l + 1 + (64 + 55 - l % 64) % 64 + 8 = 64 * ((l + 8) / 64 + 1) := by omega

/-- The block key of a key no longer than a block is the key followed by zeros (R156). -/
theorem hmacBlockKey_short (alg : HashAlg) {key : List Byte} (h : key.length ≤ 64) :
    hmacBlockKey alg key = key ++ List.replicate (64 - key.length) 0 := by
  rw [hmacBlockKey, if_neg (by simp only [Config.hashBlockBytes]; omega)]
  rfl

/-- A key shorter than a block with zeros appended up to a block has the same block key (R158). -/
theorem hmacBlockKey_append_zeros (alg : HashAlg) {key : List Byte} {n : Nat} (h : key.length + n ≤ 64) :
    hmacBlockKey alg (key ++ List.replicate n 0) = hmacBlockKey alg key := by
  rw [hmacBlockKey_short alg (by simpa using h), hmacBlockKey_short alg (by omega), List.append_assoc,
    List.length_append, List.length_replicate, List.replicate_append_replicate]
  congr 2
  omega

@[simp] theorem renderCode_length (n v : Nat) : (renderCode n v).length = n := by simp [renderCode]

@[simp] theorem computeCode_length (alg : HashAlg) (n : Nat) (secret : List Byte) (tstep : Word) :
    (computeCode alg n secret tstep).length = n := by simp [computeCode]

/-- The first digit of a code, and the rest (R192). -/
theorem renderCode_succ (n v : Nat) :
    renderCode (n + 1) v = BitVec.ofNat 8 (0x30 + v / 10 ^ n % 10) :: renderCode n v := by
  rw [renderCode, List.range_succ_eq_map, List.map_cons, List.map_map, renderCode]
  congr 1
  apply List.map_congr_left
  intro i _
  simp only [Function.comp_apply, Nat.add_sub_cancel]
  rw [show n - Nat.succ i = n - 1 - i by omega]

/-- The ASCII code of a digit. -/
theorem digitByte_toNat (v : Nat) : (BitVec.ofNat 8 (0x30 + v % 10)).toNat = 0x30 + v % 10 := by
  rw [BitVec.toNat_ofNat]; omega

/-- A malformed secret gives the empty key (R186). -/
theorem keyOf_of_error {secret : List Byte} {e : ErrorName} (h : b32decode secret = .error e) : keyOf secret = [] := by
  simp only [keyOf, h]

theorem keyOf_of_ok {secret key : List Byte} (h : b32decode secret = .ok key) : keyOf secret = key := by
  simp only [keyOf, h]

/-- Below 2^31: bit 31 is cleared (R189). -/
theorem truncateMac_lt (mac : List Byte) : truncateMac mac < 2 ^ 31 := by
  rw [truncateMac, BitVec.toNat_and]
  exact lt_of_le_of_lt Nat.and_le_right (by decide)

theorem truncOffset_lt (mac : List Byte) : truncOffset mac < 16 := by
  rw [truncOffset, BitVec.toNat_and]
  exact lt_of_le_of_lt Nat.and_le_right (by decide)

end Sys2Proof.Machine
end

