-- ==== Sys2Proof/Laws/Memory.lean ====
section
/-! SUPPORT. The laws of a buffer: what a read returns after a write, and that every operation keeps the canonical form. -/

namespace Sys2Proof.Machine

@[simp] theorem Memory.read_nil (a : Nat) : Memory.read [] a = 0 := rfl

theorem Memory.read_cons (k : Nat) (v : Byte) (m : Memory) (a : Nat) :
    Memory.read ((k, v) :: m) a = if k = a then v else Memory.read m a := rfl

theorem Memory.wf_nil : Memory.wf [] := by simp [Memory.wf]

theorem Memory.wf_cons {c : Host.Cell} {m : Memory} :
    Memory.wf (c :: m) ↔ c.2 ≠ 0 ∧ (∀ d ∈ m, c.1 < d.1) ∧ Memory.wf m := by
  simp only [Memory.wf, List.pairwise_cons, List.forall_mem_cons]
  tauto

theorem Memory.within_cons {n : Nat} {c : Host.Cell} {m : Memory} :
    Memory.within n (c :: m) ↔ c.1 < n ∧ Memory.within n m := by
  simp only [Memory.within, List.forall_mem_cons]

/-- A byte below every listed index reads 0x00. -/
theorem Memory.read_of_below {m : Memory} {a : Nat} (h : ∀ c ∈ m, a < c.1) : m.read a = 0 := by
  induction m with
  | nil => rfl
  | cons c m ih =>
    obtain ⟨hc, hm⟩ := List.forall_mem_cons.1 h
    rw [Memory.read_cons, if_neg (by omega), ih hm]

/-- A byte at or beyond the end of a buffer reads 0x00. -/
theorem Memory.read_beyond {m : Memory} {n a : Nat} (h : m.within n) (ha : n ≤ a) : m.read a = 0 := by
  induction m with
  | nil => rfl
  | cons c m ih =>
    obtain ⟨hc, hm⟩ := Memory.within_cons.1 h
    rw [Memory.read_cons, if_neg (by omega), ih hm]

/-- Every index a write lists was listed before or is the one written. -/
theorem Memory.mem_write {m : Memory} {a : Nat} {v : Byte} {c : Host.Cell} (h : c ∈ m.write a v) :
    c ∈ m ∨ c = (a, v) := by
  induction m with
  | nil =>
    rw [Memory.write] at h
    split at h <;> simp_all
  | cons d m ih =>
    obtain ⟨k, w⟩ := d
    simp only [Memory.write] at h
    split at h
    · split at h
      · exact .inl h
      · rw [List.mem_cons] at h; tauto
    · split at h
      · split at h
        · exact .inl (List.mem_cons_of_mem _ h)
        · rw [List.mem_cons] at h ⊢; tauto
      · rcases List.mem_cons.1 h with h | h
        · exact .inl (by simp [h])
        · exact (ih h).imp_left (List.mem_cons_of_mem _)

theorem Memory.wf_write {m : Memory} (h : m.wf) (a : Nat) (v : Byte) : (m.write a v).wf := by
  induction m with
  | nil =>
    rw [Memory.write]
    split
    · exact Memory.wf_nil
    · exact Memory.wf_cons.2 ⟨‹_›, by simp, Memory.wf_nil⟩
  | cons d m ih =>
    obtain ⟨k, w⟩ := d
    obtain ⟨hw, hlt, hm⟩ := Memory.wf_cons.1 h
    simp only [Memory.write]
    split
    · split
      · exact h
      · exact Memory.wf_cons.2 ⟨‹_›, by
          intro c hc
          rcases List.mem_cons.1 hc with rfl | hc
          · assumption
          · exact lt_trans ‹_› (hlt c hc), h⟩
    · split
      · split
        · exact hm
        · exact Memory.wf_cons.2 ⟨‹_›, by subst_vars; exact hlt, hm⟩
      · refine Memory.wf_cons.2 ⟨hw, fun c hc => ?_, ih hm⟩
        rcases Memory.mem_write hc with hc | rfl
        · exact hlt c hc
        · show k < a; omega

theorem Memory.within_write {n : Nat} {m : Memory} (h : m.within n) {a : Nat} (ha : a < n) (v : Byte) :
    (m.write a v).within n := by
  intro c hc
  rcases Memory.mem_write hc with hc | rfl
  · exact h c hc
  · exact ha

/-- A read after a write: the byte written, and every other byte as before. -/
theorem Memory.read_write {m : Memory} (h : m.wf) (a b : Nat) (v : Byte) :
    (m.write a v).read b = if b = a then v else m.read b := by
  induction m with
  | nil =>
    rw [Memory.write]
    split
    · rename_i hv; split <;> simp_all
    · rw [Memory.read_cons]; simp only [eq_comm]
  | cons d m ih =>
    obtain ⟨k, w⟩ := d
    obtain ⟨hw, hlt, hm⟩ := Memory.wf_cons.1 h
    have below : ∀ x, x ≤ k → Memory.read m x = 0 := fun x hx =>
      Memory.read_of_below fun c hc => lt_of_le_of_lt hx (hlt c hc)
    rw [Memory.write]
    by_cases hak : a < k
    · have cold : Memory.read ((k, w) :: m) a = 0 := by
        rw [Memory.read_cons, if_neg (by omega), below a (by omega)]
      rw [if_pos hak]
      by_cases hv : v = 0
      · rw [if_pos hv]
        by_cases hb : b = a
        · rw [if_pos hb, hb, hv, cold]
        · rw [if_neg hb]
      · rw [if_neg hv, Memory.read_cons]
        by_cases hb : b = a
        · rw [if_pos hb.symm, if_pos hb]
        · rw [if_neg (Ne.symm hb), if_neg hb]
    · rw [if_neg hak]
      by_cases hk : a = k
      · subst hk
        rw [if_pos rfl]
        by_cases hv : v = 0
        · rw [if_pos hv]
          by_cases hb : b = a
          · rw [if_pos hb, hb, hv, below a le_rfl]
          · rw [if_neg hb, Memory.read_cons, if_neg (Ne.symm hb)]
        · rw [if_neg hv, Memory.read_cons, Memory.read_cons]
          by_cases hb : b = a
          · rw [if_pos hb.symm, if_pos hb]
          · rw [if_neg (Ne.symm hb), if_neg hb, if_neg (Ne.symm hb)]
      · rw [if_neg hk, Memory.read_cons, ih hm, Memory.read_cons]
        by_cases hb : b = a
        · rw [if_neg (by omega), if_pos hb, if_pos hb]
        · rw [if_neg hb, if_neg hb]

theorem Memory.wf_writeBytes {m : Memory} (h : m.wf) (i : Nat) (bs : List Byte) : (m.writeBytes i bs).wf := by
  induction bs generalizing m i with
  | nil => exact h
  | cons b bs ih => exact ih (Memory.wf_write h i b) (i + 1)

theorem Memory.within_writeBytes {n : Nat} {m : Memory} (h : m.within n) (i : Nat) (bs : List Byte)
    (hi : i + bs.length ≤ n) : (m.writeBytes i bs).within n := by
  induction bs generalizing m i with
  | nil => exact h
  | cons b bs ih =>
    simp only [List.length_cons] at hi
    exact ih (Memory.within_write h (by omega) b) (i + 1) (by omega)

/-- A read after a byte string is written: its bytes inside, everything else as before. -/
theorem Memory.read_writeBytes {m : Memory} (h : m.wf) (i : Nat) (bs : List Byte) (a : Nat) :
    (m.writeBytes i bs).read a = if i ≤ a ∧ a < i + bs.length then bs.getD (a - i) 0 else m.read a := by
  induction bs generalizing m i with
  | nil => simp only [Memory.writeBytes, List.length_nil]; rw [if_neg (by omega)]
  | cons b bs ih =>
    rw [Memory.writeBytes, ih (Memory.wf_write h i b), Memory.read_write h, List.length_cons]
    by_cases ha : a = i
    · subst ha
      rw [if_neg (by omega), if_pos rfl, if_pos (by omega)]
      simp
    · rw [if_neg ha]
      by_cases h1 : i + 1 ≤ a ∧ a < i + 1 + bs.length
      · rw [if_pos h1, if_pos (by omega), show a - i = (a - (i + 1)) + 1 by omega, List.getD_cons_succ]
      · rw [if_neg h1, if_neg (by omega)]

@[simp] theorem Memory.length_readBytes (m : Memory) (n : Nat) : (m.readBytes n).length = n := by
  simp [Memory.readBytes]

/-- A byte string depends on the bytes it reads alone. -/
theorem Memory.readBytes_congr {m m' : Memory} {n : Nat} (h : ∀ i, i < n → m.read i = m'.read i) :
    m.readBytes n = m'.readBytes n :=
  List.map_congr_left fun i hi => h i (List.mem_range.1 hi)

/-- Reading back a byte string written at index 0. -/
theorem Memory.readBytes_writeBytes {m : Memory} (h : m.wf) (bs : List Byte) :
    (m.writeBytes 0 bs).readBytes bs.length = bs := by
  apply List.ext_getElem (by simp)
  intro i hi _
  have hi' : i < bs.length := by simpa using hi
  simp only [Memory.readBytes, List.getElem_map, List.getElem_range, Memory.read_writeBytes h]
  rw [if_pos (by omega), Nat.sub_zero, List.getD_eq_getElem _ _ hi']

/-- Canonical buffers that read alike are equal data. -/
theorem Memory.ext_of_read {m m' : Memory} (h : m.wf) (h' : m'.wf) (hr : ∀ a, m.read a = m'.read a) : m = m' := by
  induction m generalizing m' with
  | nil =>
    cases m' with
    | nil => rfl
    | cons c m' =>
      have := hr c.1
      rw [Memory.read_nil, Memory.read_cons, if_pos rfl] at this
      exact absurd this.symm (Memory.wf_cons.1 h').1
  | cons c m ih =>
    obtain ⟨hc, hlt, hm⟩ := Memory.wf_cons.1 h
    cases m' with
    | nil =>
      have := hr c.1
      rw [Memory.read_nil, Memory.read_cons, if_pos rfl] at this
      exact absurd this hc
    | cons d m' =>
      obtain ⟨hd, hlt', hm'⟩ := Memory.wf_cons.1 h'
      have key : c.1 = d.1 := by
        rcases lt_trichotomy c.1 d.1 with hcd | hcd | hcd
        · have := hr c.1
          rw [Memory.read_cons, if_pos rfl, Memory.read_of_below] at this
          · exact absurd this hc
          · exact List.forall_mem_cons.2 ⟨hcd, fun x hx => lt_trans hcd (hlt' x hx)⟩
        · exact hcd
        · have := hr d.1
          rw [Memory.read_cons (k := d.1), if_pos rfl, Memory.read_of_below] at this
          · exact absurd this.symm hd
          · exact List.forall_mem_cons.2 ⟨hcd, fun x hx => lt_trans hcd (hlt x hx)⟩
      obtain ⟨k, v⟩ := c
      obtain ⟨k', v'⟩ := d
      obtain rfl : k = k' := key
      have hv : v = v' := by simpa [Memory.read_cons] using hr k
      subst hv
      congr 1
      refine ih hm hm' fun a => ?_
      by_cases ha : k = a
      · subst ha
        rw [Memory.read_of_below (fun x hx => hlt x hx), Memory.read_of_below (fun x hx => hlt' x hx)]
      · simpa [Memory.read_cons, ha] using hr a

end Sys2Proof.Machine
end

