-- ==== Sys2Proof/Laws/State.lean ====
section
/-! SUPPORT. One lemma for each field of State and each named update: what the update leaves in that field. -/

namespace Sys2Proof.Machine

variable (s : State)

@[simp] theorem State.accept_status (w : Word) : (State.accept w s).status = s.status.accepted := rfl
@[simp] theorem State.accept_cfg (w : Word) : (State.accept w s).cfg = s.cfg := rfl
@[simp] theorem State.accept_ilen (w : Word) : (State.accept w s).ilen = s.ilen := rfl
@[simp] theorem State.accept_olen (w : Word) : (State.accept w s).olen = s.olen := rfl
@[simp] theorem State.accept_tstepLo (w : Word) : (State.accept w s).tstepLo = s.tstepLo := rfl
@[simp] theorem State.accept_tstepHi (w : Word) : (State.accept w s).tstepHi = s.tstepHi := rfl
@[simp] theorem State.accept_lcmd (w : Word) : (State.accept w s).lcmd = w := rfl
@[simp] theorem State.accept_ibuf (w : Word) : (State.accept w s).ibuf = s.ibuf := rfl
@[simp] theorem State.accept_obuf (w : Word) : (State.accept w s).obuf = s.obuf := rfl
@[simp] theorem State.accept_schedule (w : Word) : (State.accept w s).schedule = s.schedule := rfl
@[simp] theorem State.accept_responses (w : Word) : (State.accept w s).responses = s.responses := rfl
@[simp] theorem State.accept_draws (w : Word) : (State.accept w s).draws = s.draws := rfl

@[simp] theorem State.commonClear_status : (s.commonClear).status = s.status := rfl
@[simp] theorem State.commonClear_cfg : (s.commonClear).cfg = s.cfg := rfl
@[simp] theorem State.commonClear_ilen : (s.commonClear).ilen = s.ilen := rfl
@[simp] theorem State.commonClear_olen : (s.commonClear).olen = 0 := rfl
@[simp] theorem State.commonClear_tstepLo : (s.commonClear).tstepLo = s.tstepLo := rfl
@[simp] theorem State.commonClear_tstepHi : (s.commonClear).tstepHi = s.tstepHi := rfl
@[simp] theorem State.commonClear_lcmd : (s.commonClear).lcmd = s.lcmd := rfl
@[simp] theorem State.commonClear_ibuf : (s.commonClear).ibuf = s.ibuf := rfl
@[simp] theorem State.commonClear_obuf : (s.commonClear).obuf = [] := rfl
@[simp] theorem State.commonClear_schedule : (s.commonClear).schedule = s.schedule := rfl
@[simp] theorem State.commonClear_responses : (s.commonClear).responses = s.responses := rfl
@[simp] theorem State.commonClear_draws : (s.commonClear).draws = s.draws := rfl

@[simp] theorem State.deliver_status (bytes : List Byte) : (State.deliver bytes s).status = s.status := rfl
@[simp] theorem State.deliver_cfg (bytes : List Byte) : (State.deliver bytes s).cfg = s.cfg := rfl
@[simp] theorem State.deliver_ilen (bytes : List Byte) : (State.deliver bytes s).ilen = s.ilen := rfl
@[simp] theorem State.deliver_olen (bytes : List Byte) : (State.deliver bytes s).olen = BitVec.ofNat 16 bytes.length := rfl
@[simp] theorem State.deliver_tstepLo (bytes : List Byte) : (State.deliver bytes s).tstepLo = s.tstepLo := rfl
@[simp] theorem State.deliver_tstepHi (bytes : List Byte) : (State.deliver bytes s).tstepHi = s.tstepHi := rfl
@[simp] theorem State.deliver_lcmd (bytes : List Byte) : (State.deliver bytes s).lcmd = s.lcmd := rfl
@[simp] theorem State.deliver_ibuf (bytes : List Byte) : (State.deliver bytes s).ibuf = s.ibuf := rfl
@[simp] theorem State.deliver_obuf (bytes : List Byte) : (State.deliver bytes s).obuf = Memory.writeBytes s.obuf 0 bytes := rfl
@[simp] theorem State.deliver_schedule (bytes : List Byte) : (State.deliver bytes s).schedule = s.schedule := rfl
@[simp] theorem State.deliver_responses (bytes : List Byte) : (State.deliver bytes s).responses = s.responses := rfl
@[simp] theorem State.deliver_draws (bytes : List Byte) : (State.deliver bytes s).draws = s.draws := rfl

@[simp] theorem State.raise_status (e : ErrorName) : (State.raise e s).status = s.status.failed e := rfl
@[simp] theorem State.raise_cfg (e : ErrorName) : (State.raise e s).cfg = s.cfg := rfl
@[simp] theorem State.raise_ilen (e : ErrorName) : (State.raise e s).ilen = s.ilen := rfl
@[simp] theorem State.raise_olen (e : ErrorName) : (State.raise e s).olen = s.olen := rfl
@[simp] theorem State.raise_tstepLo (e : ErrorName) : (State.raise e s).tstepLo = s.tstepLo := rfl
@[simp] theorem State.raise_tstepHi (e : ErrorName) : (State.raise e s).tstepHi = s.tstepHi := rfl
@[simp] theorem State.raise_lcmd (e : ErrorName) : (State.raise e s).lcmd = s.lcmd := rfl
@[simp] theorem State.raise_ibuf (e : ErrorName) : (State.raise e s).ibuf = s.ibuf := rfl
@[simp] theorem State.raise_obuf (e : ErrorName) : (State.raise e s).obuf = s.obuf := rfl
@[simp] theorem State.raise_schedule (e : ErrorName) : (State.raise e s).schedule = s.schedule := rfl
@[simp] theorem State.raise_responses (e : ErrorName) : (State.raise e s).responses = s.responses := rfl
@[simp] theorem State.raise_draws (e : ErrorName) : (State.raise e s).draws = s.draws := rfl

@[simp] theorem State.finish_status : (s.finish).status = s.status.succeeded := rfl
@[simp] theorem State.finish_cfg : (s.finish).cfg = s.cfg := rfl
@[simp] theorem State.finish_ilen : (s.finish).ilen = s.ilen := rfl
@[simp] theorem State.finish_olen : (s.finish).olen = s.olen := rfl
@[simp] theorem State.finish_tstepLo : (s.finish).tstepLo = s.tstepLo := rfl
@[simp] theorem State.finish_tstepHi : (s.finish).tstepHi = s.tstepHi := rfl
@[simp] theorem State.finish_lcmd : (s.finish).lcmd = s.lcmd := rfl
@[simp] theorem State.finish_ibuf : (s.finish).ibuf = s.ibuf := rfl
@[simp] theorem State.finish_obuf : (s.finish).obuf = s.obuf := rfl
@[simp] theorem State.finish_schedule : (s.finish).schedule = s.schedule := rfl
@[simp] theorem State.finish_responses : (s.finish).responses = s.responses := rfl
@[simp] theorem State.finish_draws : (s.finish).draws = s.draws := rfl

@[simp] theorem State.construct_status (alg : HashAlg) (codelen : Byte) : (State.construct alg codelen s).status = { s.status with cfgv := true } := rfl
@[simp] theorem State.construct_cfg (alg : HashAlg) (codelen : Byte) : (State.construct alg codelen s).cfg = { alg := alg, codelen := codelen } := rfl
@[simp] theorem State.construct_ilen (alg : HashAlg) (codelen : Byte) : (State.construct alg codelen s).ilen = s.ilen := rfl
@[simp] theorem State.construct_olen (alg : HashAlg) (codelen : Byte) : (State.construct alg codelen s).olen = s.olen := rfl
@[simp] theorem State.construct_tstepLo (alg : HashAlg) (codelen : Byte) : (State.construct alg codelen s).tstepLo = s.tstepLo := rfl
@[simp] theorem State.construct_tstepHi (alg : HashAlg) (codelen : Byte) : (State.construct alg codelen s).tstepHi = s.tstepHi := rfl
@[simp] theorem State.construct_lcmd (alg : HashAlg) (codelen : Byte) : (State.construct alg codelen s).lcmd = s.lcmd := rfl
@[simp] theorem State.construct_ibuf (alg : HashAlg) (codelen : Byte) : (State.construct alg codelen s).ibuf = s.ibuf := rfl
@[simp] theorem State.construct_obuf (alg : HashAlg) (codelen : Byte) : (State.construct alg codelen s).obuf = s.obuf := rfl
@[simp] theorem State.construct_schedule (alg : HashAlg) (codelen : Byte) : (State.construct alg codelen s).schedule = s.schedule := rfl
@[simp] theorem State.construct_responses (alg : HashAlg) (codelen : Byte) : (State.construct alg codelen s).responses = s.responses := rfl
@[simp] theorem State.construct_draws (alg : HashAlg) (codelen : Byte) : (State.construct alg codelen s).draws = s.draws := rfl

@[simp] theorem State.zeroise_status : (s.zeroise).status = s.status := rfl
@[simp] theorem State.zeroise_cfg : (s.zeroise).cfg = s.cfg := rfl
@[simp] theorem State.zeroise_ilen : (s.zeroise).ilen = 0 := rfl
@[simp] theorem State.zeroise_olen : (s.zeroise).olen = s.olen := rfl
@[simp] theorem State.zeroise_tstepLo : (s.zeroise).tstepLo = 0 := rfl
@[simp] theorem State.zeroise_tstepHi : (s.zeroise).tstepHi = 0 := rfl
@[simp] theorem State.zeroise_lcmd : (s.zeroise).lcmd = s.lcmd := rfl
@[simp] theorem State.zeroise_ibuf : (s.zeroise).ibuf = [] := rfl
@[simp] theorem State.zeroise_obuf : (s.zeroise).obuf = s.obuf := rfl
@[simp] theorem State.zeroise_schedule : (s.zeroise).schedule = s.schedule := rfl
@[simp] theorem State.zeroise_responses : (s.zeroise).responses = s.responses := rfl
@[simp] theorem State.zeroise_draws : (s.zeroise).draws = s.draws := rfl

@[simp] theorem State.failedWithCode_status (code : BitVec 4) : (s.failedWithCode code).status = { busy := false, done := true, err := true, errcode := code, cfgv := s.status.cfgv } := rfl
@[simp] theorem State.failedWithCode_cfg (code : BitVec 4) : (s.failedWithCode code).cfg = s.cfg := rfl
@[simp] theorem State.failedWithCode_ilen (code : BitVec 4) : (s.failedWithCode code).ilen = s.ilen := rfl
@[simp] theorem State.failedWithCode_olen (code : BitVec 4) : (s.failedWithCode code).olen = 0 := rfl
@[simp] theorem State.failedWithCode_tstepLo (code : BitVec 4) : (s.failedWithCode code).tstepLo = s.tstepLo := rfl
@[simp] theorem State.failedWithCode_tstepHi (code : BitVec 4) : (s.failedWithCode code).tstepHi = s.tstepHi := rfl
@[simp] theorem State.failedWithCode_lcmd (code : BitVec 4) : (s.failedWithCode code).lcmd = s.lcmd := rfl
@[simp] theorem State.failedWithCode_ibuf (code : BitVec 4) : (s.failedWithCode code).ibuf = s.ibuf := rfl
@[simp] theorem State.failedWithCode_obuf (code : BitVec 4) : (s.failedWithCode code).obuf = [] := rfl
@[simp] theorem State.failedWithCode_schedule (code : BitVec 4) : (s.failedWithCode code).schedule = s.schedule := rfl
@[simp] theorem State.failedWithCode_responses (code : BitVec 4) : (s.failedWithCode code).responses = s.responses := rfl
@[simp] theorem State.failedWithCode_draws (code : BitVec 4) : (s.failedWithCode code).draws = s.draws := rfl
@[simp] theorem State.failedWith_status (e : ErrorName) : (s.failedWith e).status = { busy := false, done := true, err := true, errcode := e.code, cfgv := s.status.cfgv } := rfl
@[simp] theorem State.failedWith_cfg (e : ErrorName) : (s.failedWith e).cfg = s.cfg := rfl
@[simp] theorem State.failedWith_ilen (e : ErrorName) : (s.failedWith e).ilen = s.ilen := rfl
@[simp] theorem State.failedWith_olen (e : ErrorName) : (s.failedWith e).olen = 0 := rfl
@[simp] theorem State.failedWith_tstepLo (e : ErrorName) : (s.failedWith e).tstepLo = s.tstepLo := rfl
@[simp] theorem State.failedWith_tstepHi (e : ErrorName) : (s.failedWith e).tstepHi = s.tstepHi := rfl
@[simp] theorem State.failedWith_lcmd (e : ErrorName) : (s.failedWith e).lcmd = s.lcmd := rfl
@[simp] theorem State.failedWith_ibuf (e : ErrorName) : (s.failedWith e).ibuf = s.ibuf := rfl
@[simp] theorem State.failedWith_obuf (e : ErrorName) : (s.failedWith e).obuf = [] := rfl
@[simp] theorem State.failedWith_schedule (e : ErrorName) : (s.failedWith e).schedule = s.schedule := rfl
@[simp] theorem State.failedWith_responses (e : ErrorName) : (s.failedWith e).responses = s.responses := rfl
@[simp] theorem State.failedWith_draws (e : ErrorName) : (s.failedWith e).draws = s.draws := rfl

@[simp] theorem State.respond_status (r : Response) : (State.respond r s).status = s.status := rfl
@[simp] theorem State.respond_cfg (r : Response) : (State.respond r s).cfg = s.cfg := rfl
@[simp] theorem State.respond_ilen (r : Response) : (State.respond r s).ilen = s.ilen := rfl
@[simp] theorem State.respond_olen (r : Response) : (State.respond r s).olen = s.olen := rfl
@[simp] theorem State.respond_tstepLo (r : Response) : (State.respond r s).tstepLo = s.tstepLo := rfl
@[simp] theorem State.respond_tstepHi (r : Response) : (State.respond r s).tstepHi = s.tstepHi := rfl
@[simp] theorem State.respond_lcmd (r : Response) : (State.respond r s).lcmd = s.lcmd := rfl
@[simp] theorem State.respond_ibuf (r : Response) : (State.respond r s).ibuf = s.ibuf := rfl
@[simp] theorem State.respond_obuf (r : Response) : (State.respond r s).obuf = s.obuf := rfl
@[simp] theorem State.respond_schedule (r : Response) : (State.respond r s).schedule = s.schedule := rfl
@[simp] theorem State.respond_responses (r : Response) : (State.respond r s).responses = s.responses ++ [r] := rfl
@[simp] theorem State.respond_draws (r : Response) : (State.respond r s).draws = s.draws + 1 := rfl

@[simp] theorem State.reschedule_status (es : List Event) : (State.reschedule es s).status = s.status := rfl
@[simp] theorem State.reschedule_cfg (es : List Event) : (State.reschedule es s).cfg = s.cfg := rfl
@[simp] theorem State.reschedule_ilen (es : List Event) : (State.reschedule es s).ilen = s.ilen := rfl
@[simp] theorem State.reschedule_olen (es : List Event) : (State.reschedule es s).olen = s.olen := rfl
@[simp] theorem State.reschedule_tstepLo (es : List Event) : (State.reschedule es s).tstepLo = s.tstepLo := rfl
@[simp] theorem State.reschedule_tstepHi (es : List Event) : (State.reschedule es s).tstepHi = s.tstepHi := rfl
@[simp] theorem State.reschedule_lcmd (es : List Event) : (State.reschedule es s).lcmd = s.lcmd := rfl
@[simp] theorem State.reschedule_ibuf (es : List Event) : (State.reschedule es s).ibuf = s.ibuf := rfl
@[simp] theorem State.reschedule_obuf (es : List Event) : (State.reschedule es s).obuf = s.obuf := rfl
@[simp] theorem State.reschedule_schedule (es : List Event) : (State.reschedule es s).schedule = es := rfl
@[simp] theorem State.reschedule_responses (es : List Event) : (State.reschedule es s).responses = s.responses := rfl
@[simp] theorem State.reschedule_draws (es : List Event) : (State.reschedule es s).draws = s.draws := rfl

@[simp] theorem State.doFirst_status (es : List Event) : (State.doFirst es s).status = s.status := rfl
@[simp] theorem State.doFirst_cfg (es : List Event) : (State.doFirst es s).cfg = s.cfg := rfl
@[simp] theorem State.doFirst_ilen (es : List Event) : (State.doFirst es s).ilen = s.ilen := rfl
@[simp] theorem State.doFirst_olen (es : List Event) : (State.doFirst es s).olen = s.olen := rfl
@[simp] theorem State.doFirst_tstepLo (es : List Event) : (State.doFirst es s).tstepLo = s.tstepLo := rfl
@[simp] theorem State.doFirst_tstepHi (es : List Event) : (State.doFirst es s).tstepHi = s.tstepHi := rfl
@[simp] theorem State.doFirst_lcmd (es : List Event) : (State.doFirst es s).lcmd = s.lcmd := rfl
@[simp] theorem State.doFirst_ibuf (es : List Event) : (State.doFirst es s).ibuf = s.ibuf := rfl
@[simp] theorem State.doFirst_obuf (es : List Event) : (State.doFirst es s).obuf = s.obuf := rfl
@[simp] theorem State.doFirst_schedule (es : List Event) : (State.doFirst es s).schedule = es ++ s.schedule := rfl
@[simp] theorem State.doFirst_responses (es : List Event) : (State.doFirst es s).responses = s.responses := rfl
@[simp] theorem State.doFirst_draws (es : List Event) : (State.doFirst es s).draws = s.draws := rfl

@[simp] theorem State.resetEvent_status : (s.resetEvent).status = State.reset.status := rfl
@[simp] theorem State.resetEvent_cfg : (s.resetEvent).cfg = State.reset.cfg := rfl
@[simp] theorem State.resetEvent_ilen : (s.resetEvent).ilen = State.reset.ilen := rfl
@[simp] theorem State.resetEvent_olen : (s.resetEvent).olen = State.reset.olen := rfl
@[simp] theorem State.resetEvent_tstepLo : (s.resetEvent).tstepLo = State.reset.tstepLo := rfl
@[simp] theorem State.resetEvent_tstepHi : (s.resetEvent).tstepHi = State.reset.tstepHi := rfl
@[simp] theorem State.resetEvent_lcmd : (s.resetEvent).lcmd = State.reset.lcmd := rfl
@[simp] theorem State.resetEvent_ibuf : (s.resetEvent).ibuf = State.reset.ibuf := rfl
@[simp] theorem State.resetEvent_obuf : (s.resetEvent).obuf = State.reset.obuf := rfl
@[simp] theorem State.resetEvent_schedule : (s.resetEvent).schedule = s.schedule := rfl
@[simp] theorem State.resetEvent_responses : (s.resetEvent).responses = s.responses := rfl
@[simp] theorem State.resetEvent_draws : (s.resetEvent).draws = s.draws := rfl

@[simp] theorem State.block_status : (s.block).status = s.status := rfl
@[simp] theorem State.block_cfg : (s.block).cfg = s.cfg := rfl
@[simp] theorem State.block_ilen : (s.block).ilen = s.ilen := rfl
@[simp] theorem State.block_olen : (s.block).olen = s.olen := rfl
@[simp] theorem State.block_tstepLo : (s.block).tstepLo = s.tstepLo := rfl
@[simp] theorem State.block_tstepHi : (s.block).tstepHi = s.tstepHi := rfl
@[simp] theorem State.block_lcmd : (s.block).lcmd = s.lcmd := rfl
@[simp] theorem State.block_ibuf : (s.block).ibuf = s.ibuf := rfl
@[simp] theorem State.block_obuf : (s.block).obuf = s.obuf := rfl
@[simp] theorem State.block_schedule : (s.block).schedule = [] := rfl
@[simp] theorem State.block_responses : (s.block).responses = [] := rfl
@[simp] theorem State.block_draws : (s.block).draws = 0 := rfl

/-! The same for the three updates of STATUS. -/

@[simp] theorem Status.accepted_busy (st : Status) : (st.accepted).busy = true := rfl
@[simp] theorem Status.accepted_done (st : Status) : (st.accepted).done = false := rfl
@[simp] theorem Status.accepted_err (st : Status) : (st.accepted).err = false := rfl
@[simp] theorem Status.accepted_errcode (st : Status) : (st.accepted).errcode = 0 := rfl
@[simp] theorem Status.accepted_cfgv (st : Status) : (st.accepted).cfgv = st.cfgv := rfl
@[simp] theorem Status.succeeded_busy (st : Status) : (st.succeeded).busy = false := rfl
@[simp] theorem Status.succeeded_done (st : Status) : (st.succeeded).done = true := rfl
@[simp] theorem Status.succeeded_err (st : Status) : (st.succeeded).err = false := rfl
@[simp] theorem Status.succeeded_errcode (st : Status) : (st.succeeded).errcode = 0 := rfl
@[simp] theorem Status.succeeded_cfgv (st : Status) : (st.succeeded).cfgv = st.cfgv := rfl
@[simp] theorem Status.failed_busy (st : Status) (e : ErrorName) : (st.failed e).busy = false := rfl
@[simp] theorem Status.failed_done (st : Status) (e : ErrorName) : (st.failed e).done = true := rfl
@[simp] theorem Status.failed_err (st : Status) (e : ErrorName) : (st.failed e).err = true := rfl
@[simp] theorem Status.failed_errcode (st : Status) (e : ErrorName) : (st.failed e).errcode = e.code := rfl
@[simp] theorem Status.failed_cfgv (st : Status) (e : ErrorName) : (st.failed e).cfgv = st.cfgv := rfl

end Sys2Proof.Machine
end

