-- ==== Sys2Proof/Laws/Commands.lean ====
section
/-! SUPPORT. What the completion step of each command can leave, said once. -/

namespace Sys2Proof.Machine

/-- Raising after the common clearing leaves exactly `failedWith` (R256). -/
theorem commonClear_raise (s : State) (e : ErrorName) : s.commonClear.raise e = s.failedWith e := rfl

theorem illegal_eq (s : State) : s.illegal = s.failedWith .illegalCommand := rfl

/-- Delivering a result that fits OBUF (R213). -/
theorem delivers_of_fits (s : State) {bytes : List Byte} (h : bytes.length ≤ Config.obufBytes) :
    Delivers s (s.commonClear.deliver bytes).finish bytes := by
  have hlen : ((s.commonClear.deliver bytes).finish).olen.toNat = bytes.length := by
    simp only [Config.obufBytes] at h
    simp only [State.finish_olen, State.deliver_olen, BitVec.toNat_ofNat]
    omega
  refine ⟨?_, hlen, fun i hi => ?_, rfl, fun _ => rfl, rfl⟩
  · rw [State.result, hlen]
    exact Memory.readBytes_writeBytes Memory.wf_nil bytes
  · show Memory.read (Memory.writeBytes [] 0 bytes) i = 0
    rw [Memory.read_writeBytes Memory.wf_nil, if_neg (by omega), Memory.read_nil]

/-- The delivered buffer is canonical and inside OBUF. -/
theorem deliver_obuf (s : State) {bytes : List Byte} (h : bytes.length ≤ Config.obufBytes) :
    (s.commonClear.deliver bytes).finish.obuf.wf ∧
    (s.commonClear.deliver bytes).finish.obuf.within Config.obufBytes :=
  ⟨Memory.wf_writeBytes Memory.wf_nil 0 bytes,
   Memory.within_writeBytes (by simp [Memory.within]) 0 bytes (by omega)⟩

theorem input_length (s : State) : s.input.length = s.ilen.toNat := Memory.length_readBytes _ _

/-- R44: the results of the commands fit OBUF. -/
theorem b32decode_fits {t out : List Byte} (ht : t.length ≤ 256) (h : b32decode t = .ok out) : out.length ≤ 160 := by
  have := b32decode_length h; omega

theorem b32encode_fits {b : List Byte} (hb : b.length ≤ 256) : (b32encode b).length ≤ 416 := by
  have hq := symbolCount_bits b.length
  rw [b32encode_eq, List.length_append, List.length_map, encodedValues_length, List.length_replicate]
  omega

/-- The supported algorithm codes are 0 and 1 (R93, R181). -/
theorem ofCode_eq_some {c : Byte} {a : HashAlg} : HashAlg.ofCode c = some a ↔ (c = 0 ∧ a = .sha1) ∨ (c = 1 ∧ a = .sha256) := by
  rw [HashAlg.ofCode]
  split
  · subst_vars; cases a <;> simp
  · split
    · subst_vars; cases a <;> simp
    · simp_all

theorem inputTooLong_iff (s : State) : s.inputTooLong = true ↔ 256 < s.ilen.toNat := decide_eq_true_iff

/-! One lemma for each command: every way its completion step can end. -/

theorem execConfig_cases (alg codelen : Byte) (s : State) :
    (s.status.cfgv = true ∧ execConfig alg codelen s = .next (s.failedWith .configLocked)) ∨
    (s.status.cfgv = false ∧ (HashAlg.ofCode alg = none ∨ codelen.toNat < 6) ∧
      execConfig alg codelen s = .next (s.failedWith .configurationError)) ∨
    (∃ a, s.status.cfgv = false ∧ HashAlg.ofCode alg = some a ∧ 6 ≤ codelen.toNat ∧
      execConfig alg codelen s = .next (s.commonClear.construct a codelen).finish) := by
  cases hv : s.status.cfgv with
  | true => exact .inl ⟨rfl, by rw [execConfig, if_pos hv, commonClear_raise]⟩
  | false =>
    have hne : ¬s.status.cfgv = true := by simp [hv]
    cases ha : HashAlg.ofCode alg with
    | none => exact .inr (.inl ⟨rfl, .inl rfl, by rw [execConfig, if_neg hne, ha]; rfl⟩)
    | some a =>
      by_cases hc : codelen.toNat < 6
      · refine .inr (.inl ⟨rfl, .inr hc, ?_⟩)
        rw [execConfig, if_neg hne, ha]
        exact congrArg _ (if_pos hc)
      · refine .inr (.inr ⟨a, rfl, rfl, by omega, ?_⟩)
        rw [execConfig, if_neg hne, ha]
        exact congrArg _ (if_neg hc)

theorem execB32dec_cases (s : State) :
    (256 < s.ilen.toNat ∧ execB32dec s = .next (s.failedWith .lengthError)) ∨
    (s.ilen.toNat ≤ 256 ∧ b32decode s.input = .error .decodeFailure ∧
      execB32dec s = .next (s.failedWith .decodeFailure)) ∨
    (∃ bytes, s.ilen.toNat ≤ 256 ∧ b32decode s.input = .ok bytes ∧ bytes.length ≤ 160 ∧
      execB32dec s = .next (s.commonClear.deliver bytes).finish) := by
  by_cases hl : s.inputTooLong = true
  · exact .inl ⟨(inputTooLong_iff s).1 hl, by rw [execB32dec, if_pos hl, commonClear_raise]⟩
  · have hl' : s.ilen.toNat ≤ 256 := not_lt.1 fun h => hl ((inputTooLong_iff s).2 h)
    cases hd : b32decode s.input with
    | error e =>
      obtain rfl := b32decode_error hd
      exact .inr (.inl ⟨hl', rfl, by rw [execB32dec, if_neg hl, hd]; rfl⟩)
    | ok bytes =>
      refine .inr (.inr ⟨bytes, hl', rfl, b32decode_fits (by rw [input_length]; exact hl') hd, ?_⟩)
      rw [execB32dec, if_neg hl, hd]

theorem execB32enc_cases (s : State) :
    (256 < s.ilen.toNat ∧ execB32enc s = .next (s.failedWith .lengthError)) ∨
    (s.ilen.toNat ≤ 256 ∧ (b32encode s.input).length ≤ 416 ∧
      execB32enc s = .next (s.commonClear.deliver (b32encode s.input)).finish) := by
  by_cases hl : s.inputTooLong = true
  · exact .inl ⟨(inputTooLong_iff s).1 hl, by rw [execB32enc, if_pos hl, commonClear_raise]⟩
  · have hl' : s.ilen.toNat ≤ 256 := not_lt.1 fun h => hl ((inputTooLong_iff s).2 h)
    exact .inr ⟨hl', b32encode_fits (by rw [input_length]; exact hl'), by rw [execB32enc, if_neg hl]⟩

theorem execOtp_cases (s : State) :
    (s.status.cfgv = false ∧ execOtp s = .next (s.failedWith .notConfigured)) ∨
    (s.status.cfgv = true ∧ 256 < s.ilen.toNat ∧ execOtp s = .next (s.failedWith .lengthError)) ∨
    (s.status.cfgv = true ∧ s.ilen.toNat ≤ 256 ∧
      execOtp s = .next (s.commonClear.deliver
        (computeCode s.cfg.alg s.cfg.codelen.toNat s.input s.tstepLo)).finish) := by
  cases hv : s.status.cfgv with
  | false => exact .inl ⟨rfl, by rw [execOtp, hv]; rfl⟩
  | true =>
    by_cases hl : s.inputTooLong = true
    · exact .inr (.inl ⟨rfl, (inputTooLong_iff s).1 hl, by rw [execOtp, hv, hl]; rfl⟩)
    · have hl' : s.ilen.toNat ≤ 256 := not_lt.1 fun h => hl ((inputTooLong_iff s).2 h)
      refine .inr (.inr ⟨rfl, hl', ?_⟩)
      rw [execOtp, hv]
      exact congrArg _ (if_neg hl)

theorem execClear_eq (s : State) : execClear s = .next s.commonClear.zeroise.finish := rfl

/-- The four shapes of a completion step: an error, a result that fits OBUF, a constructed engine, or CLEAR. -/
theorem exec_cases (i : Instr) (s : State) :
    (∃ e, exec i s = .next (s.failedWith e)) ∨
    (∃ bytes, exec i s = .next (s.commonClear.deliver bytes).finish ∧ bytes.length ≤ Config.obufBytes) ∨
    (∃ alg codelen a, i = .config alg codelen ∧ s.status.cfgv = false ∧ HashAlg.ofCode alg = some a ∧
      6 ≤ codelen.toNat ∧ exec i s = .next (s.commonClear.construct a codelen).finish) ∨
    (i = .clear ∧ exec i s = .next s.commonClear.zeroise.finish) := by
  cases i with
  | config alg codelen =>
    rcases execConfig_cases alg codelen s with ⟨-, h⟩ | ⟨-, -, h⟩ | ⟨a, hv, ha, hc, h⟩
    · exact .inl ⟨_, h⟩
    · exact .inl ⟨_, h⟩
    · exact .inr (.inr (.inl ⟨alg, codelen, a, rfl, hv, ha, hc, h⟩))
  | b32dec =>
    rcases execB32dec_cases s with ⟨-, h⟩ | ⟨-, -, h⟩ | ⟨bytes, -, -, hb, h⟩
    · exact .inl ⟨_, h⟩
    · exact .inl ⟨_, h⟩
    · exact .inr (.inl ⟨bytes, h, le_trans hb (by decide)⟩)
  | b32enc =>
    rcases execB32enc_cases s with ⟨-, h⟩ | ⟨-, hb, h⟩
    · exact .inl ⟨_, h⟩
    · exact .inr (.inl ⟨_, h, hb⟩)
  | otp =>
    rcases execOtp_cases s with ⟨-, h⟩ | ⟨-, -, h⟩ | ⟨-, -, h⟩
    · exact .inl ⟨_, h⟩
    · exact .inl ⟨_, h⟩
    · refine .inr (.inl ⟨_, h, ?_⟩)
      have := s.cfg.codelen.isLt
      simp only [computeCode_length, Config.obufBytes]
      omega
  | clear => exact .inr (.inr (.inr ⟨rfl, rfl⟩))

/-- No completion step stops. -/
theorem exec_next (i : Instr) (s : State) : ∃ t, exec i s = .next t := by
  rcases exec_cases i s with ⟨e, h⟩ | ⟨bytes, h, -⟩ | ⟨_, _, _, -, -, -, -, h⟩ | ⟨-, h⟩ <;> exact ⟨_, h⟩

end Sys2Proof.Machine
end

