-- ==== Sys2Proof/Laws/PerInstr.lean ====
section
/-! SUPPORT. Statements made of every command, one lemma for each constructor. -/

namespace Sys2Proof.Laws.EncodedFields

/-- The word of a command holds its four fields, and RSV is 0x00 (spec/30_encoding.md R90). -/
def Statement (i : Instr) : Prop :=
  opcField (encode i) = i.opc ∧ arg0Field (encode i) = i.arg0 ∧ arg1Field (encode i) = i.arg1 ∧ rsvField (encode i) = 0

/-- The bits of a word built from four bytes. -/
theorem getLsbD_of_bytes (b3 b2 b1 b0 : Byte) (j : Nat) :
    BitVec.getLsbD (w := 32) (b3 ++ b2 ++ b1 ++ b0) j =
      if j < 8 then b0.getLsbD j else if j - 8 < 8 then b1.getLsbD (j - 8)
      else if j - 8 - 8 < 8 then b2.getLsbD (j - 8 - 8) else b3.getLsbD (j - 8 - 8 - 8) := by
  have h := BitVec.getLsbD_append (x := b3 ++ b2 ++ b1) (y := b0) (i := j)
  rw [BitVec.getLsbD_append (x := b3 ++ b2) (y := b1), BitVec.getLsbD_append (x := b3) (y := b2)] at h
  simpa only [Bool.cond_decide] using h

/-- The four fields of a word built from four bytes. -/
theorem fields_of_bytes (b3 b2 b1 b0 : Byte) :
    opcField (b3 ++ b2 ++ b1 ++ b0) = b0 ∧ arg0Field (b3 ++ b2 ++ b1 ++ b0) = b1 ∧
    arg1Field (b3 ++ b2 ++ b1 ++ b0) = b2 ∧ rsvField (b3 ++ b2 ++ b1 ++ b0) = b3 := by
  refine ⟨?_, ?_, ?_, ?_⟩ <;>
    · apply BitVec.eq_of_getLsbD_eq
      intro i hi
      simp only [opcField, arg0Field, arg1Field, rsvField, BitVec.getLsbD_extractLsb', getLsbD_of_bytes]
      simp [hi, show 16 + i - 8 - 8 = i by omega, show 24 + i - 8 - 8 - 8 = i by omega,
        show ¬16 + i < 8 by omega, show ¬24 + i < 8 by omega, show ¬16 + i - 8 < 8 by omega,
        show ¬24 + i - 8 < 8 by omega, show ¬24 + i - 8 - 8 < 8 by omega, show ¬8 + i < 8 by omega]

theorem config (alg codelen : Byte) : Statement (.config alg codelen) := fields_of_bytes 0 codelen alg 1
theorem b32dec : Statement .b32dec := fields_of_bytes 0 0 0 2
theorem b32enc : Statement .b32enc := fields_of_bytes 0 0 0 3
theorem otp : Statement .otp := fields_of_bytes 0 0 0 4
theorem clear : Statement .clear := fields_of_bytes 0 0 0 5

end Sys2Proof.Laws.EncodedFields
end

