-- ==== Sys2Proof/Laws/Step.lean ====
section
/-! SUPPORT. What each move of an agent does, said once, and steps and runs in terms of it. -/

namespace Sys2Proof.Machine

/-! ### One step, by the head of the schedule -/

theorem step_of_nil {s : State} (h : s.schedule = []) : step s = engineTurn s := by
  simp only [step, nextMove, h]

theorem step_of_cons {s : State} {e : Event} {rest : List Event} (h : s.schedule = e :: rest) :
    step s = runEvent e (s.reschedule rest) := by
  simp only [step, nextMove, h]

theorem runsTo_zero {s t : State} : s.runsTo 0 t ↔ s = t :=
  ⟨fun h => Host.Outcome.next.inj h, fun h => congrArg _ h⟩

/-- A run of `n + 1` steps is a step and a run of `n` steps. -/
theorem runsTo_succ {s t : State} {n : Nat} : s.runsTo (n + 1) t ↔ ∃ s', step s = .next s' ∧ s'.runsTo n t := by
  have unfolded := Host.Core.run.eq_2 Sys2Proof.core s n
  cases hs : step s with
  | next s' =>
    rw [show Sys2Proof.core.step s = .next s' from hs] at unfolded
    exact ⟨fun h => ⟨s', rfl, unfolded.symm.trans h⟩, fun ⟨u, hu, h⟩ => by cases hu; exact unfolded.trans h⟩
  | fault r => cases r
  | refused r =>
    rw [show Sys2Proof.core.step s = .refused r from hs] at unfolded
    exact ⟨fun h => (by cases unfolded.symm.trans h), fun ⟨u, hu, _⟩ => (by cases hu)⟩

/-- A run after a run. -/
theorem runsTo_add {s t u : State} {n m : Nat} (h : s.runsTo n t) (h' : t.runsTo m u) : s.runsTo (n + m) u := by
  induction n generalizing s with
  | zero => rw [runsTo_zero.1 h, Nat.zero_add]; exact h'
  | succ n ih =>
    obtain ⟨s', hs, hn⟩ := runsTo_succ.1 h
    rw [show n + 1 + m = n + m + 1 by omega]
    exact runsTo_succ.2 ⟨s', hs, ih hn⟩

/-! ### The engine -/

theorem engineTurn_idle {s : State} (h : s.status.busy = false) : engineTurn s = .next s := by
  simp [engineTurn, h]

theorem engineTurn_busy {s : State} (h : s.status.busy = true) : engineTurn s = completionStep s := by
  simp [engineTurn, h]

/-- A completion step leaves an error, a result, a constructed engine or a cleared block. -/
theorem completionStep_cases (s : State) :
    (∃ e, completionStep s = .next (s.failedWith e)) ∨
    (∃ bytes, completionStep s = .next (s.commonClear.deliver bytes).finish ∧ bytes.length ≤ Config.obufBytes) ∨
    (∃ alg codelen a, decode s.lcmd = .ok (.config alg codelen) ∧ s.status.cfgv = false ∧
      HashAlg.ofCode alg = some a ∧ 6 ≤ codelen.toNat ∧
      completionStep s = .next (s.commonClear.construct a codelen).finish) ∨
    (completionStep s = .next s.commonClear.zeroise.finish) := by
  cases hd : decode s.lcmd with
  | error r => exact .inl ⟨.illegalCommand, by simp only [completionStep, hd, illegal_eq]⟩
  | ok i =>
    have hc : completionStep s = exec i s := by simp only [completionStep, hd]
    rw [hc]
    rcases exec_cases i s with h | h | ⟨alg, codelen, a, rfl, h⟩ | ⟨-, h⟩
    · exact .inl h
    · exact .inr (.inl h)
    · exact .inr (.inr (.inl ⟨alg, codelen, a, rfl, h⟩))
    · exact .inr (.inr (.inr h))

theorem completionStep_next (s : State) : ∃ t, completionStep s = .next t := by
  rcases completionStep_cases s with ⟨e, h⟩ | ⟨bytes, h, -⟩ | ⟨_, _, _, -, -, -, -, h⟩ | h <;> exact ⟨_, h⟩

/-- Every completion step ends with BUSY = 0 and DONE = 1, and keeps the environment. -/
theorem completionStep_status {s t : State} (h : completionStep s = .next t) :
    t.status.busy = false ∧ t.status.done = true ∧
    t.schedule = s.schedule ∧ t.responses = s.responses ∧ t.draws = s.draws := by
  rcases completionStep_cases s with ⟨e, h'⟩ | ⟨bytes, h', -⟩ | ⟨_, _, _, -, -, -, -, h'⟩ | h' <;>
    · rw [h] at h'
      cases h'
      exact ⟨rfl, rfl, rfl, rfl, rfl⟩

theorem engineTurn_next (s : State) : ∃ t, engineTurn s = .next t := by
  cases h : s.status.busy with
  | false => exact ⟨s, engineTurn_idle h⟩
  | true => rw [engineTurn_busy h]; exact completionStep_next s

/-! ### The host's accesses -/

theorem wordAccess_iff (off : Nat) : wordAccess off = true ↔ off % 4 = 0 ∧ off < 0x100 := by
  simp only [wordAccess, Bool.and_eq_true, beq_iff_eq, decide_eq_true_iff]

theorem byteAccess_iff (off : Nat) : byteAccess off = true ↔ 0x100 ≤ off ∧ off < 0x400 := by
  rw [byteAccess, Bool.and_eq_true, decide_eq_true_iff, decide_eq_true_iff]
  rfl

/-- An access the host has reads a value or writes; there is no third way (R62 to R65). -/
theorem hostAccess_wellFormed {a : Access} (h : a.wellFormed = true) (s : State) :
    (∃ r, hostAccess a s = .next (s.respond r)) ∨
    (∃ off v, a = .writeWord off v ∧ hostAccess a s = .next (s.writeWord off v)) ∨
    (∃ off v, a = .writeByte off v ∧ hostAccess a s = .next (s.writeByte off v)) := by
  cases a with
  | readWord off =>
    simp only [Access.wellFormed, Bool.and_eq_true, beq_iff_eq, decide_eq_true_iff] at h
    exact .inl ⟨_, if_pos ((wordAccess_iff off).2 ⟨h.1, by omega⟩)⟩
  | writeWord off v =>
    simp only [Access.wellFormed, Bool.and_eq_true, beq_iff_eq, decide_eq_true_iff] at h
    exact .inr (.inl ⟨off, v, rfl, if_pos ((wordAccess_iff off).2 ⟨h.1, by omega⟩)⟩)
  | readByte off =>
    simp only [Access.wellFormed, Bool.and_eq_true, decide_eq_true_iff] at h
    exact .inl ⟨_, if_pos ((byteAccess_iff off).2 ⟨h.1, by omega⟩)⟩
  | writeByte off v =>
    simp only [Access.wellFormed, Bool.and_eq_true, decide_eq_true_iff] at h
    exact .inr (.inr ⟨off, v, rfl, if_pos ((byteAccess_iff off).2 ⟨h.1, by omega⟩)⟩)
  | otherWidth off width => simp [Access.wellFormed] at h

/-- Every other access is refused (R66). -/
theorem hostAccess_busError {a : Access} (h : a.wellFormed = false) (s : State) :
    ∃ off width, hostAccess a s = .refused (.busError off width) := by
  cases a with
  | readWord off =>
    refine ⟨off, 4, if_neg fun hw => ?_⟩
    have := (wordAccess_iff off).1 hw
    simp [Access.wellFormed] at h
    omega
  | writeWord off v =>
    refine ⟨off, 4, if_neg fun hw => ?_⟩
    have := (wordAccess_iff off).1 hw
    simp [Access.wellFormed] at h
    omega
  | readByte off =>
    refine ⟨off, 1, if_neg fun hw => ?_⟩
    have := (byteAccess_iff off).1 hw
    simp [Access.wellFormed] at h
    omega
  | writeByte off v =>
    refine ⟨off, 1, if_neg fun hw => ?_⟩
    have := (byteAccess_iff off).1 hw
    simp [Access.wellFormed] at h
    omega
  | otherWidth off width => exact ⟨off, width, rfl⟩

/-- While BUSY = 1 writes do nothing (R68). -/
theorem writeWord_busy {s : State} (h : s.status.busy = true) (off : Nat) (v : Word) : s.writeWord off v = s := by
  simp [State.writeWord, h]

theorem writeByte_busy {s : State} (h : s.status.busy = true) (off : Nat) (v : Byte) : s.writeByte off v = s := by
  simp [State.writeByte, h]

/-- While BUSY = 0 a word write accepts a command, stores into one operand register, or does nothing (R63). -/
theorem writeWord_idle {s : State} (h : s.status.busy = false) (off : Nat) (v : Word) :
    (off = regOffset .cmd ∧ s.writeWord off v = s.accept v) ∨
    (off ≠ regOffset .cmd ∧
      s.writeWord off v = { s with
        ilen := if off = 0x00C then v.setWidth 16 else s.ilen
        tstepLo := if off = 0x014 then v else s.tstepLo
        tstepHi := if off = 0x018 then v else s.tstepHi }) := by
  have hw : s.writeWord off v = match regAt off with | some r => s.writeReg v r | none => s := by
    rw [State.writeWord, h]; rfl
  rw [hw]
  by_cases h0 : off = 0x000
  · subst h0; exact .inl ⟨rfl, rfl⟩
  refine .inr ⟨h0, ?_⟩
  by_cases h1 : off = 0x004
  · subst h1; rfl
  by_cases h2 : off = 0x008
  · subst h2; rfl
  by_cases h3 : off = 0x00C
  · subst h3; rfl
  by_cases h4 : off = 0x010
  · subst h4; rfl
  by_cases h5 : off = 0x014
  · subst h5; rfl
  by_cases h6 : off = 0x018
  · subst h6; rfl
  simp [regAt, h0, h1, h2, h3, h4, h5, h6]

/-! ### Everything a step can do -/

/-- Two states with the same block agree on every field of the block. -/
theorem fields_of_block {s t : State} (h : t.block = s.block) :
    t.status = s.status ∧ t.cfg = s.cfg ∧ t.ilen = s.ilen ∧ t.olen = s.olen ∧ t.tstepLo = s.tstepLo ∧
    t.tstepHi = s.tstepHi ∧ t.lcmd = s.lcmd ∧ t.ibuf = s.ibuf ∧ t.obuf = s.obuf := by
  simp only [State.block, State.mk.injEq] at h
  obtain ⟨h1, h2, h3, h4, h5, h6, h7, h8, h9, -, -, -⟩ := h
  exact ⟨h1, h2, h3, h4, h5, h6, h7, h8, h9⟩

/-- The block after a write does not depend on the schedule. -/
theorem writeWord_block (s : State) (rest : List Event) (off : Nat) (v : Word) :
    ((s.reschedule rest).writeWord off v).block = (s.writeWord off v).block := by
  by_cases hb : s.status.busy = true
  · rw [writeWord_busy hb, writeWord_busy (s := s.reschedule rest) hb]; rfl
  · rw [State.writeWord, State.writeWord, if_neg hb, State.reschedule_status, if_neg hb]
    cases regAt off with
    | none => rfl
    | some r => cases r <;> rfl

theorem writeByte_block (s : State) (rest : List Event) (off : Nat) (v : Byte) :
    ((s.reschedule rest).writeByte off v).block = (s.writeByte off v).block := by
  by_cases hb : s.status.busy = true
  · rw [writeByte_busy hb, writeByte_busy (s := s.reschedule rest) hb]; rfl
  · rw [State.writeByte, State.writeByte, if_neg hb, State.reschedule_status, if_neg hb]
    split <;> rfl

/-- Which of the agents moves next. -/
structure State.Mover (s : State) (engine reset issue : Bool) : Prop where
  engineMoves : s.engineMoves = engine
  resets : s.resets = reset
  issues : s.issues = issue

/-- What a step does to the block: the engine's turn, RESET, nothing, a command accepted (or ignored), an operand
register written (or ignored), an IBUF byte written (or ignored). -/
theorem step_cases {s t : State} (h : step s = .next t) :
    (s.Mover true false false ∧ engineTurn (s.reschedule s.schedule.tail) = .next t) ∨
    (s.Mover false true false ∧ t.block = State.reset) ∨
    (s.Mover false false false ∧ t.block = s.block) ∨
    (∃ v, s.Mover false false true ∧ t.block = (s.writeWord (regOffset .cmd) v).block) ∨
    (∃ off v, off ≠ regOffset .cmd ∧ s.Mover false false false ∧ t.block = (s.writeWord off v).block) ∨
    (∃ off v, 0x100 ≤ off ∧ s.Mover false false false ∧ t.block = (s.writeByte off v).block) := by
  cases hs : s.schedule with
  | nil =>
    rw [step_of_nil hs] at h
    exact .inl ⟨by constructor <;> simp [State.engineMoves, State.resets, State.issues, hs],
      by rw [List.tail_nil, ← hs]; exact h⟩
  | cons e rest =>
    rw [step_of_cons hs] at h
    cases e with
    | engine => exact .inl ⟨by constructor <;> simp [State.engineMoves, State.resets, State.issues, hs], h⟩
    | reset =>
      cases h
      exact .inr (.inl ⟨by constructor <;> simp [State.engineMoves, State.resets, State.issues, hs], rfl⟩)
    | wait k =>
      cases h
      refine .inr (.inr (.inl ⟨by constructor <;> simp [State.engineMoves, State.resets, State.issues, hs], ?_⟩))
      unfold waitTurn
      split
      · cases k <;> rfl
      · rfl
    | readout =>
      cases h
      exact .inr (.inr (.inl ⟨by constructor <;> simp [State.engineMoves, State.resets, State.issues, hs], rfl⟩))
    | access a =>
      change hostAccess a _ = _ at h
      cases a with
      | readWord off =>
        refine .inr (.inr (.inl ⟨by constructor <;> simp [State.engineMoves, State.resets, State.issues, hs], ?_⟩))
        simp only [hostAccess] at h
        split at h <;> cases h
        rfl
      | readByte off =>
        refine .inr (.inr (.inl ⟨by constructor <;> simp [State.engineMoves, State.resets, State.issues, hs], ?_⟩))
        simp only [hostAccess] at h
        split at h <;> cases h
        rfl
      | writeWord off v =>
        simp only [hostAccess] at h
        split at h <;> cases h
        by_cases ho : off = regOffset .cmd
        · subst ho
          exact .inr (.inr (.inr (.inl ⟨v,
            by constructor <;> simp [State.engineMoves, State.resets, State.issues, hs], writeWord_block ..⟩)))
        · exact .inr (.inr (.inr (.inr (.inl ⟨off, v, ho,
            by constructor <;> simp [State.engineMoves, State.resets, State.issues, hs, ho], writeWord_block ..⟩))))
      | writeByte off v =>
        simp only [hostAccess] at h
        split at h <;> cases h
        rename_i hb
        exact .inr (.inr (.inr (.inr (.inr ⟨off, v, ((byteAccess_iff off).1 hb).1,
          by constructor <;> simp [State.engineMoves, State.resets, State.issues, hs], writeByte_block ..⟩))))
      | otherWidth off width => cases h

/-! ### The open parameter BASE -/

/-- R23: BASE is a multiple of 0x400. -/
theorem base_aligned : Config.base % 0x400 = 0 := by
  simp [Config.base, Config.windowBytes]

/-- R23: the bus addresses of the window are BASE + 0x000 to BASE + 0x3FF. -/
theorem offsetOf_base_add (off : Nat) : Config.offsetOf (Config.base + off) = if off < 0x400 then some off else none := by
  rw [Config.offsetOf, show Config.windowBytes = 0x400 from rfl]
  by_cases h : off < 0x400
  · rw [if_pos ⟨by omega, by omega⟩, if_pos h]; congr 1; omega
  · rw [if_neg (by omega), if_neg h]

end Sys2Proof.Machine
end

