-- ==== Sys2Proof/Tests/Slice0.lean ====
section
/-! SUPPORT. Tests whose expected values stand in spec/ (each docstring names the place), the refusals of WellFormed, and,
for every statement with hypotheses, a witness that meets them. -/

namespace Sys2Proof.Tests

open Sys2Proof.Machine

/-! ### Small states -/

/-- A buffer that holds a byte string from index 0. -/
def holding (bytes : List Byte) : Memory := Memory.writeBytes [] 0 bytes

/-- The reset state with an input loaded, as the host leaves it after LOADB. -/
def loaded (bytes : List Byte) : State :=
  { State.reset with ibuf := holding bytes, ilen := BitVec.ofNat 16 bytes.length }

/-- A block whose engine was constructed by CONFIG SHA1, 6. -/
def configured (s : State) : State :=
  { s with cfg := { alg := .sha1, codelen := 6 }, status := { s.status with done := true, cfgv := true } }

/-- A block with a pending command word. -/
def pendingWith (w : Word) (s : State) : State := s.accept w

/-- A block after a failed command. -/
def failed : State := State.reset.failedWith .illegalCommand

/-- The state a step leaves, if it leaves one. -/
def nextOf (s : State) : Option State :=
  match step s with
  | .next t => some t
  | .fault _ => none
  | .refused _ => none

theorem step_of_nextOf {s t : State} (h : nextOf s = some t) : step s = .next t := by
  rw [nextOf] at h
  split at h <;> simp_all

/-- What the completion step of a word leaves, if it leaves a state. -/
def afterWord (w : Nat) (s : State) : Option State := nextOf (s.withFetchWord 32 w)

/-- STATUS and the result after the completion step of a word. -/
def outcomeOf (w : Nat) (s : State) : Option (Word × List Byte) :=
  (afterWord w s).map fun t => (t.status.word, t.result)

/-- The ASCII text of spec/42_otp.md R184, "GEZDGNBVGY3TQOJQ" twice. -/
def rfcSecret : List Byte :=
  [0x47, 0x45, 0x5A, 0x44, 0x47, 0x4E, 0x42, 0x56, 0x47, 0x59, 0x33, 0x54, 0x51, 0x4F, 0x4A, 0x51] ++
  [0x47, 0x45, 0x5A, 0x44, 0x47, 0x4E, 0x42, 0x56, 0x47, 0x59, 0x33, 0x54, 0x51, 0x4F, 0x4A, 0x51]

/-! ### Decoding: words written out field by field from R90 (RSV, ARG1, ARG0, OPC) and R92 -/

theorem test_decode_config_sha1 :
    decode (0b00000000#8 ++ 0b00000110#8 ++ 0b00000000#8 ++ 0b00000001#8) = .ok (.config 0 6) := by decide
theorem test_decode_config_sha256 :
    decode (0b00000000#8 ++ 0b11111111#8 ++ 0b00000001#8 ++ 0b00000001#8) = .ok (.config 1 255) := by decide
theorem test_decode_b32dec :
    decode (0b00000000#8 ++ 0b00000000#8 ++ 0b00000000#8 ++ 0b00000010#8) = .ok .b32dec := by decide
theorem test_decode_b32enc :
    decode (0b00000000#8 ++ 0b00000000#8 ++ 0b00000000#8 ++ 0b00000011#8) = .ok .b32enc := by decide
theorem test_decode_otp :
    decode (0b00000000#8 ++ 0b00000000#8 ++ 0b00000000#8 ++ 0b00000100#8) = .ok .otp := by decide
theorem test_decode_clear :
    decode (0b00000000#8 ++ 0b00000000#8 ++ 0b00000000#8 ++ 0b00000101#8) = .ok .clear := by decide

/-- R94: OPC 0x00 and 0x06, RSV ≠ 0, and a format-N word with an argument. -/
theorem test_decode_illegal :
    decode 0x00000000 = .error .opcode ∧ decode 0x00000006 = .error .opcode ∧
    decode 0x80060001 = .error .reserved ∧ decode 0x00010004 = .error .arguments := by decide

/-- The host's numbering of the table's bits. -/
theorem test_decode_table_word :
    decodeTableWord 32 0x00060001 = some (.config 0 6) ∧ decodeTableWord 32 0x00000004 = some .otp ∧
    decodeTableWord 32 0x00000000 = none ∧ decodeTableWord 40 0x00000004 = none := by decide

/-! ### WellFormed refuses each ill-formed term -/

theorem smoke_word_access :
    Access.wellFormed (.readWord 0x002) = false ∧ Access.wellFormed (.readWord 0x100) = false ∧
    Access.wellFormed (.writeWord 0x005 0) = false ∧ Access.wellFormed (.writeWord 0x200 0) = false ∧
    Access.wellFormed (.readWord 0x3A0) = false ∧
    Access.wellFormed (.readWord 0x0FC) = true := by decide
theorem smoke_byte_access :
    Access.wellFormed (.readByte 0x0FF) = false ∧ Access.wellFormed (.readByte 0x400) = false ∧
    Access.wellFormed (.writeByte 0x000 0) = false ∧ Access.wellFormed (.writeByte 0x400 0) = false ∧
    Access.wellFormed (.writeByte 0x3FF 0) = true := by decide
theorem smoke_other_width : Access.wellFormed (.otherWidth 0x100 2) = false := by decide
theorem smoke_script_indices :
    ScriptLine.wellFormed (.wrb 256 0) = false ∧ ScriptLine.wellFormed (.rdbIbuf 256) = false ∧
    ScriptLine.wellFormed (.rdbObuf 416) = false ∧ ScriptLine.wellFormed (.rdbObuf 415) = true := by decide
theorem smoke_script_config :
    ScriptLine.wellFormed (.config 256 6) = false ∧ ScriptLine.wellFormed (.config 0 256) = false := by decide
theorem smoke_script_load : ScriptLine.wellFormed (.load (List.replicate 257 0x41)) = false := by
  decide +kernel

/-! ### The commands -/

/-- R180's example: STATUS and CFG after CONFIG SHA1, 6 from reset. -/
theorem test_config :
    (afterWord 0x00060001 State.reset).map (fun t => (t.status.word, t.cfg.word)) =
      some (0x00010002, 0x00000600) := by decide +kernel

/-- R261: CONFIG 7, 3 on a configured block reports ConfigLocked. -/
theorem test_config_locked :
    (afterWord 0x00030701 (configured State.reset)).map (fun t => (t.status.word, t.cfg.word)) =
      some (0x00010606, 0x00000600) := by decide +kernel

/-- R114's example: "MZXW6YQ=". -/
theorem test_b32dec :
    outcomeOf 2 (loaded [0x4D, 0x5A, 0x58, 0x57, 0x36, 0x59, 0x51, 0x3D]) =
      some (0x00000002, [0x66, 0x6F, 0x6F, 0x62]) := by decide +kernel

/-- R122: "M=Z=====" has its padding elsewhere. -/
theorem test_b32dec_failure :
    outcomeOf 2 (loaded [0x4D, 0x3D, 0x5A, 0x3D, 0x3D, 0x3D, 0x3D, 0x3D]) = some (0x00000206, []) := by decide +kernel

/-- R124's example: "MZXW6===". -/
theorem test_b32enc :
    outcomeOf 3 (loaded [0x66, 0x6F, 0x6F]) =
      some (0x00000002, [0x4D, 0x5A, 0x58, 0x57, 0x36, 0x3D, 0x3D, 0x3D]) := by decide +kernel

/-- R258: ILEN.LEN = 257. -/
theorem test_b32enc_length : outcomeOf 3 { State.reset with ilen := 257 } = some (0x00000406, []) := by decide +kernel

/-- R184's example: "287082". -/
theorem test_otp :
    outcomeOf 4 (configured { loaded rfcSecret with tstepLo := 1 }) =
      some (0x00010002, [0x32, 0x38, 0x37, 0x30, 0x38, 0x32]) := by decide +kernel

/-- R261: OTP on an unconfigured block with ILEN = 300 reports NotConfigured. -/
theorem test_otp_not_configured :
    outcomeOf 4 { State.reset with ilen := 300 } = some (0x00000506, []) := by decide +kernel

/-- R214's example. -/
theorem test_clear :
    (afterWord 5 (configured { loaded rfcSecret with tstepLo := 1, tstepHi := 1, obuf := holding [0x31], olen := 1 })).map
      (fun t => t.status.word == 0x00010002 && t.ilen == 0 && t.olen == 0 && t.tstepLo == 0 && t.tstepHi == 0 &&
        t.ibuf == [] && t.obuf == []) = some true := by decide +kernel

/-- R215's example. -/
theorem test_illegal_word : outcomeOf 0 State.reset = some (0x00000306, []) := by decide +kernel

/-- R149: SHA1("abc"). -/
theorem test_sha1_abc :
    sha1 [0x61, 0x62, 0x63] =
      tobe32 0xa9993e36 ++ tobe32 0x4706816a ++ tobe32 0xba3e2571 ++ tobe32 0x7850c26c ++ tobe32 0x9cd0d89d := by
  decide +kernel

/-- R155: SHA256("abc"). -/
theorem test_sha256_abc :
    sha256 [0x61, 0x62, 0x63] =
      tobe32 0xba7816bf ++ tobe32 0x8f01cfea ++ tobe32 0x414140de ++ tobe32 0x5dae2223 ++
      tobe32 0xb00361a3 ++ tobe32 0x96177a9c ++ tobe32 0xb410ff61 ++ tobe32 0xf20015ad := by
  decide +kernel

/-- R159: HMAC(0, "", 8 bytes 0x00). -/
theorem test_hmac_empty_key :
    hmac .sha1 [] [0, 0, 0, 0, 0, 0, 0, 0] =
      tobe32 0xdab69ad9 ++ tobe32 0x8e28764f ++ tobe32 0x977ee248 ++ tobe32 0x7e4f3f68 ++ tobe32 0x73b2a297 := by
  decide +kernel

/-- R99: TSTEP writes both halves, in this order. -/
theorem test_script_tstep :
    expandLine (.tstep 0x100000002) =
      [.access (.writeWord 0x014 2), .access (.writeWord 0x018 1)] := by decide

/-! ### Witnesses: the hypotheses of every statement can be met -/

/-- The reset state, with a schedule or a result or an input, meets the invariant. -/
theorem inv_of_reset {s : State} (hst : s.status = State.reset.status) (hcfg : s.cfg = State.reset.cfg)
    (hib : s.ibuf = []) (hob : s.obuf = []) (hol : s.olen = 0) : s.Inv := by
  constructor <;> simp [hst, hcfg, hib, hob, hol, State.reset, Memory.wf, Memory.within]

theorem witness_ResetEventRestoresResetState :
    let s := (pendingWith 4 (configured State.reset)).reschedule [.reset]
    s.schedule = .reset :: [] ∧ s.status.busy = true := by decide

theorem witness_EveryStepKeepsInvariant :
    ∃ s t : State, s.Inv ∧ step s = .next t ∧ t ≠ s := by
  refine ⟨State.reset.reschedule [.access (.writeWord 0x000 4)], _,
    inv_of_reset rfl rfl rfl rfl rfl, rfl, by decide⟩

theorem witness_BusyChangesOnlyByAcceptanceCompletionReset :
    (∃ s t : State, step s = .next t ∧ s.status.busy = false ∧ s.issues = true) ∧
    (∃ s t : State, step s = .next t ∧ s.status.busy = true ∧ s.engineMoves = false ∧ s.resets = false) ∧
    (∃ s t : State, step s = .next t ∧ s.status.busy = true ∧ s.engineMoves = true) ∧
    (∃ s t : State, step s = .next t ∧ s.status.busy = true ∧ s.resets = true) :=
  ⟨⟨State.reset.reschedule [.access (.writeWord 0x000 4)], _, rfl, by decide⟩,
   ⟨(pendingWith 4 State.reset).reschedule [.access (.readWord 0x004)], _, rfl, by decide⟩,
   ⟨pendingWith 5 State.reset, _, step_of_nextOf (t := (State.reset.accept 5).commonClear.zeroise.finish) (by decide +kernel),
      by decide⟩,
   ⟨(pendingWith 5 State.reset).reschedule [.reset], _, rfl, by decide⟩⟩

theorem witness_ConfigurationIsWrittenOncePerReset :
    (∃ s t : State, step s = .next t ∧ s.resets = true ∧ s.status.cfgv = true) ∧
    (∃ s t : State, step s = .next t ∧ s.resets = false ∧ s.status.cfgv = true ∧ s.status.busy = true) ∧
    (∃ s t : State, step s = .next t ∧ s.resets = false ∧ s.status.busy = true ∧ s.engineMoves = true ∧
      s.status.cfgv = false ∧ t.status.cfgv = true ∧ decode s.lcmd = .ok (.config 0 6) ∧
      HashAlg.ofCode 0 = some .sha1 ∧ 6 ≤ (6 : Byte).toNat) ∧
    (decode 0x00FF0101 = .ok (.config 1 255) ∧ HashAlg.ofCode 1 = some .sha256 ∧ 6 ≤ (255 : Byte).toNat) := by
  refine ⟨⟨(configured State.reset).reschedule [.reset], _, rfl, by decide⟩,
    ⟨pendingWith 0x00FF0101 (configured State.reset), _, step_of_nextOf
      (t := (pendingWith 0x00FF0101 (configured State.reset)).failedWith .configLocked) (by decide +kernel), by decide⟩,
    ⟨pendingWith 0x00060001 State.reset, _, step_of_nextOf
      (t := ((State.reset.accept 0x00060001).commonClear.construct .sha1 6).finish) (by decide +kernel), by decide⟩,
    by decide⟩

theorem witness_ResultsChangeOnlyByCompletionOrReset :
    (∃ s t : State, step s = .next t ∧ t.olen ≠ s.olen ∧ s.status.busy = true) ∧
    (∃ s t : State, step s = .next t ∧ t.obuf.read 0 ≠ s.obuf.read 0 ∧ s.resets = true) :=
  ⟨⟨pendingWith 5 { State.reset with olen := 1 },
    _,
    step_of_nextOf (t := (State.reset.accept 5).commonClear.zeroise.finish) (by decide +kernel), by decide⟩,
   ⟨{ State.reset with obuf := [(0, 0x31)], olen := 1, schedule := [.reset] }, _, rfl, by decide⟩⟩

theorem witness_ErrorStaysUntilNextCommand :
    (∃ s t : State, step s = .next t ∧ t.status.err ≠ s.status.err ∧ s.issues = true) ∧
    (∃ s t : State, step s = .next t ∧ t.status.errcode ≠ s.status.errcode ∧ s.engineMoves = true) ∧
    (∃ s t : State, step s = .next t ∧ t.status.errcode ≠ s.status.errcode ∧ s.resets = true) :=
  ⟨⟨failed.reschedule [.access (.writeWord 0x000 4)], _, rfl, by decide⟩,
   ⟨pendingWith 0 State.reset, _, step_of_nextOf (t := (State.reset.accept 0).illegal) (by decide +kernel),
    by decide⟩,
   ⟨failed.reschedule [.reset], _, rfl, by decide⟩⟩

theorem witness_AcceptanceLatchesTheWord :
    ∀ w : Word, (State.reset.reschedule [.access (.writeWord 0x000 w)]).status.busy = false ∧
      (State.reset.reschedule [.access (.writeWord 0x000 w)]).schedule = .access (.writeWord 0x000 w) :: [] :=
  fun _ => ⟨rfl, rfl⟩

theorem witness_WordWriteFollowsRegisterMap :
    ∀ off ∈ [0x000, 0x004, 0x008, 0x00C, 0x010, 0x014, 0x018, 0x01C, 0x0FC], off % 4 = 0 ∧ off ≤ 0x0FC ∧
      (State.reset.reschedule [.access (.writeWord off 5)]).schedule = .access (.writeWord off 5) :: [] ∧
      (State.reset.reschedule [.access (.writeWord off 5)]).status.busy = false ∧
      ((pendingWith 4 State.reset).reschedule [.access (.writeWord off 5)]).status.busy = true := by decide

theorem witness_ByteWriteStoresOneInputByte :
    ∀ off ∈ [0x100, 0x1FF, 0x200, 0x39F, 0x3A0, 0x3FF], 0x100 ≤ off ∧ off ≤ 0x3FF ∧
      ((loaded [0x41]).reschedule [.access (.writeByte off 0)]).ibuf.wf ∧
      ((loaded [0x41]).reschedule [.access (.writeByte off 0)]).schedule = .access (.writeByte off 0) :: [] := by decide

theorem witness_BusyIgnoresEveryWrite :
    (∀ off ∈ [0x000, 0x0FC], off % 4 = 0 ∧ off ≤ 0x0FC ∧
      ((pendingWith 4 State.reset).reschedule [.access (.writeWord off 5)]).status.busy = true) ∧
    (∀ off ∈ [0x100, 0x1FF, 0x200, 0x3FF], 0x100 ≤ off ∧ off ≤ 0x3FF ∧
      ((pendingWith 4 State.reset).reschedule [.access (.writeByte off 5)]).status.busy = true) := by decide

theorem witness_WordReadReturnsRegister :
    ∀ off ∈ [0x000, 0x004, 0x008, 0x00C, 0x010, 0x014, 0x018, 0x01C, 0x0FC], off % 4 = 0 ∧ off ≤ 0x0FC ∧
      (State.reset.reschedule [.access (.readWord off)]).schedule = .access (.readWord off) :: [] ∧
      (State.reset.reschedule [.access (.readWord off)]).status.busy = false := by decide

theorem witness_ByteReadReturnsBufferByte :
    ∀ off ∈ [0x100, 0x1FF, 0x200, 0x39F, 0x3A0, 0x3FF], 0x100 ≤ off ∧ off ≤ 0x3FF ∧
      (State.reset.reschedule [.access (.readByte off)]).schedule = .access (.readByte off) :: [] ∧
      (State.reset.reschedule [.access (.readByte off)]).status.busy = false := by decide

theorem witness_ResultIndependentOfCompletionTime :
    let accesses : List Access := [.readWord 0x004, .writeWord 0x000 5, .writeByte 0x100 1, .readByte 0x200]
    let s := (pendingWith 4 (configured State.reset)).reschedule (accesses.map Event.access ++ [.engine])
    s.status.busy = true ∧ (∀ a ∈ accesses, a.wellFormed = true) ∧
      s.schedule = accesses.map Event.access ++ [.engine] := by decide

theorem witness_ResultsStayUntilNextCommand :
    let accesses : List Access := [.writeWord 0x00C 3, .writeWord 0x014 7, .writeByte 0x100 1, .readByte 0x200]
    let s := (configured State.reset).reschedule (accesses.map Event.access ++ [.engine])
    s.status.busy = false ∧ (∀ a ∈ accesses, a.wellFormed = true ∧ issuesCommand a = false) ∧
      s.schedule = accesses.map Event.access ++ [.engine] := by decide

theorem witness_WaitEndsWithBusyZero :
    ∀ polls ∈ [0, 1, 5],
      ((pendingWith 4 State.reset).reschedule [.wait polls, .readout]).schedule = .wait polls :: [.readout] := by decide

theorem witness_ReadoutReturnsTheResult :
    ∀ n ∈ [0, 6, 416], let s := { State.reset with olen := BitVec.ofNat 16 n, schedule := [.readout] }
      s.status.busy = false ∧ s.olen.toNat ≤ 416 ∧ s.schedule = .readout :: [] := by decide

theorem witness_OpcodeRowsAreDisjoint :
    ∃ r r' : OpRow, r ∈ opcodeMap ∧ r' ∈ opcodeMap ∧ r.selects 0x00060001 = true ∧ r'.selects 0x00060001 = true :=
  ⟨_, _, .head _, .head _, by decide, by decide⟩

theorem witness_EngineRunsTheDecodedCommand :
    ∀ i ∈ [Instr.config 0 6, .b32dec, .b32enc, .otp, .clear],
      (pendingWith (encode i) State.reset).status.busy = true ∧
      decode (pendingWith (encode i) State.reset).lcmd = .ok i ∧
      (pendingWith (encode i) State.reset).schedule = [] ∧
      ((pendingWith (encode i) State.reset).reschedule [.engine]).schedule = .engine :: [] := by decide

theorem witness_IllegalWordRaisesIllegalCommand :
    ∀ p ∈ [((0x00000000 : Word), IllegalWord.opcode), (0x00000006, .opcode), (0x01000002, .reserved),
        (0x00010005, .arguments)],
      (pendingWith p.1 State.reset).status.busy = true ∧ (pendingWith p.1 State.reset).schedule = [] ∧
      ((pendingWith p.1 State.reset).reschedule [.engine]).schedule = .engine :: [] ∧
      decode (pendingWith p.1 State.reset).lcmd = .error p.2 := by decide

theorem witness_IdleEngineChangesNothing :
    State.reset.status.busy = false ∧ State.reset.schedule = [] ∧
    (State.reset.reschedule [.engine, .readout]).schedule = .engine :: [.readout] := by decide

/-- Every command completes from every state, so a premise `exec i s = .next t` is always met by some `t`
(CompletionLeavesStatusConsistent, EachCommandRaisesOnlyItsErrors, CommandsAreAllOrNothing,
CommandsButClearKeepTheirOperands, ResultsFitTheOutputBuffer); here with an error, and without one. -/
theorem witness_completion :
    (∃ t, exec .otp State.reset = .next t ∧ t.status.err = true) ∧
    (∃ t, exec (.config 0 6) State.reset = .next t ∧ t.status.err = false) ∧
    (∃ t, exec .b32dec State.reset = .next t ∧ t.status.err = false ∧ Instr.b32dec ≠ .clear) ∧
    (∃ t, exec .b32enc (loaded [0x66]) = .next t ∧ t.olen = 8) ∧
    (∃ t, exec .clear failed = .next t ∧ t.status.errcode = 0) :=
  ⟨⟨_, rfl, by decide⟩, ⟨_, rfl, by decide⟩, ⟨_, rfl, by decide +kernel⟩, ⟨_, rfl, by decide +kernel⟩, ⟨_, rfl, by decide⟩⟩

/-- The second clause of CompletionLeavesStatusConsistent, at an illegal word and at a command. -/
theorem witness_CompletionLeavesStatusConsistent :
    (∃ s t : State, s.status.busy = true ∧ s.engineMoves = true ∧ step s = .next t ∧ t.status.err = true) ∧
    (∃ s t : State, s.status.busy = true ∧ s.engineMoves = true ∧ step s = .next t ∧ t.status.err = false) :=
  ⟨⟨pendingWith 0 State.reset, _, by decide, by decide,
    step_of_nextOf (t := (State.reset.accept 0).illegal) (by decide +kernel), by decide⟩,
   ⟨(pendingWith 5 State.reset).reschedule [.engine], _, by decide, by decide,
    step_of_nextOf (t := (State.reset.accept 5).commonClear.zeroise.finish) (by decide +kernel), by decide⟩⟩

theorem witness_ConfigOutcomes :
    (configured State.reset).status.cfgv = true ∧
    (State.reset.status.cfgv = false ∧ 2 ≤ (2 : Byte).toNat ∧ (5 : Byte).toNat < 6 ∧ ¬(1 : Byte).toNat ≥ 2) ∧
    (State.reset.status.cfgv = false ∧ (1 : Byte).toNat ≤ 1 ∧ 6 ≤ (6 : Byte).toNat ∧ 6 ≤ (255 : Byte).toNat) := by decide

theorem witness_Base32DecodeOutcomes :
    256 < ({ State.reset with ilen := 257 } : State).ilen.toNat ∧
    ((loaded [0x4D, 0x31]).ilen.toNat ≤ 256 ∧
      b32decode ((loaded [0x4D, 0x31]).ibuf.readBytes (loaded [0x4D, 0x31]).ilen.toNat) = .error .decodeFailure) ∧
    ((loaded [0x4D, 0x59]).ilen.toNat ≤ 256 ∧
      b32decode ((loaded [0x4D, 0x59]).ibuf.readBytes (loaded [0x4D, 0x59]).ilen.toNat) = .ok [0x66]) := by
  decide +kernel

theorem witness_Base32EncodeOutcomes :
    256 < ({ State.reset with ilen := 257 } : State).ilen.toNat ∧
    ({ State.reset with ilen := 256 } : State).ilen.toNat ≤ 256 := by decide

theorem witness_SymbolMapsAreInverse : b32val 0x41 = some 0 ∧ b32val 0x5A = some 25 ∧ b32val 0x32 = some 26 ∧
    b32val 0x37 = some 31 := by decide

/-- R122: "MZXW6===" decodes to 66 6F 6F. -/
theorem witness_DecodedBytesAsOneNumber :
    b32decode [0x4D, 0x5A, 0x58, 0x57, 0x36, 0x3D, 0x3D, 0x3D] = .ok [0x66, 0x6F, 0x6F] := by decide +kernel

theorem witness_DecoderAcceptsExactly :
    (∃ e, b32decode [0x30] = .error e) ∧ b32decode [0x3D] = .ok [] := by
  refine ⟨⟨.decodeFailure, ?_⟩, ?_⟩ <;> decide +kernel

theorem witness_OtpOutcomes :
    State.reset.status.cfgv = false ∧
    ((configured { State.reset with ilen := 257 }).status.cfgv = true ∧
      256 < (configured { State.reset with ilen := 257 }).ilen.toNat) ∧
    ((configured { State.reset with ilen := 256 }).status.cfgv = true ∧
      (configured { State.reset with ilen := 256 }).ilen.toNat ≤ 256) := by decide

/-- "SECRET1" is malformed; the empty secret decodes to the empty key. -/
theorem witness_MalformedSecretActsAsEmptyKey :
    let malformed := configured (loaded [0x53, 0x45, 0x43, 0x52, 0x45, 0x54, 0x31])
    let empty := configured State.reset
    (malformed.status.cfgv = true ∧ malformed.ilen.toNat ≤ 256 ∧
      b32decode (malformed.ibuf.readBytes malformed.ilen.toNat) = .error .decodeFailure) ∧
    (empty.status.cfgv = true ∧ empty.ilen.toNat ≤ 256 ∧ b32decode (empty.ibuf.readBytes empty.ilen.toNat) = .ok []) := by
  decide +kernel

theorem witness_OtpDependsOnItsOperandsOnly :
    let s := configured (loaded [0x4D, 0x59])
    let s' := { s with tstepHi := 1, ibuf := holding [0x4D, 0x59, 0x5A], lcmd := 4 }
    s ≠ s' ∧ s.cfg = s'.cfg ∧ s.status.cfgv = s'.status.cfgv ∧ s.ilen = s'.ilen ∧ s.tstepLo = s'.tstepLo ∧
      ∀ i, i < s.ilen.toNat → s.ibuf.read i = s'.ibuf.read i := by decide +kernel

theorem witness_PaddedMessageShape :
    (List.replicate 55 (0 : Byte)).length < 2 ^ 61 ∧ (List.replicate 56 (0 : Byte)).length < 2 ^ 61 := by simp

theorem witness_ZeroPaddedKeyGivesSameMac :
    ([] : List Byte).length + 64 ≤ 64 ∧ (List.replicate 20 (0x0B : Byte)).length + 44 ≤ 64 ∧
    (List.replicate 64 (0x0B : Byte)).length + 0 ≤ 64 := by simp

theorem witness_TruncationSelectsInsideTheMac :
    20 ≤ (List.replicate 20 (0xFF : Byte)).length ∧ 20 ≤ (List.replicate 32 (0xFF : Byte)).length := by simp

theorem witness_LongCodesAreZeroExtended : 10 ≤ 10 ∧ 10 ≤ (255 : Byte).toNat := by decide

/-- R197 gives the code of the empty secret at time-step 0, "328482": time-step 1 has it in its window, with or without the
defaults (R222: 59 seconds are time-step 1), and with an extra leading zero it fails (R223). -/
theorem witness_VerifierAcceptsExactlyTheWindow :
    verifyCode .sha1 6 0 [] [0x33, 0x32, 0x38, 0x34, 0x38, 0x32] 1 1 = true ∧
    verifyCode .sha1 6 0 [] [0x30, 0x33, 0x32, 0x38, 0x34, 0x38, 0x32] 1 1 = false := by decide +kernel
theorem witness_VerifierDefaultsAreOneStepAroundNow :
    verifyCode .sha1 6 59 [] [0x33, 0x32, 0x38, 0x34, 0x38, 0x32] = true := by decide +kernel

theorem witness_GeneratedSecretShape :
    (16 ≤ 16 ∧ 16 ≤ 128) ∧ (16 ≤ 128 ∧ 128 ≤ 128) ∧ (15 < 16 ∨ 128 < 15) ∧ (129 < 16 ∨ 128 < 129) := by decide

theorem witness_GeneratedSecretDecodes :
    createSecret (some fun i => BitVec.ofNat 8 i) 16 =
      .ok [0x41, 0x42, 0x43, 0x44, 0x45, 0x46, 0x47, 0x48, 0x49, 0x4A, 0x4B, 0x4C, 0x4D, 0x4E, 0x4F, 0x50] := by
  decide +kernel

theorem witness_HostSequenceComputesTheCode :
    let s := (configured State.reset).reschedule (expandScript (computeCodeScript rfcSecret 0x100000001 2) ++ [.readout])
    s.Inv ∧ s.status.busy = false ∧ s.status.cfgv = true ∧ rfcSecret.length ≤ 256 ∧
      s.schedule = expandScript (computeCodeScript rfcSecret 0x100000001 2) ++ [.readout] := by
  refine ⟨?_, by decide, by decide, by decide, rfl⟩
  constructor <;> simp [configured, State.reset, Memory.wf, Memory.within, Config.codeLenMin, State.reschedule]

end Sys2Proof.Tests
end

section
/-! The family of the state statements: the reset state (R47), who changes BUSY (R26), and who writes CFG and CFGV
(R29, R33). Both invariants come from one account of what a step does to STATUS and to the block's outputs. -/

namespace Sys2Proof.Machine

/-! ### What the host's writes leave unchanged -/

/-- The fields that are not STATUS and that no host access writes: CFG, OLEN and OBUF. -/
structure State.SameOutputs (s t : State) : Prop where
  cfg : t.cfg = s.cfg
  olen : t.olen = s.olen
  obuf : t.obuf = s.obuf

theorem State.SameOutputs.of_block {s t : State} (h : t.block = s.block) : s.SameOutputs t := by
  obtain ⟨-, hcfg, -, holen, -, -, -, -, hobuf⟩ := fields_of_block h
  exact ⟨hcfg, holen, hobuf⟩

theorem State.SameOutputs.trans {s t u : State} (h : s.SameOutputs t) (h' : t.SameOutputs u) : s.SameOutputs u :=
  ⟨h'.cfg.trans h.cfg, h'.olen.trans h.olen, h'.obuf.trans h.obuf⟩

/-- No word write reaches CFG, OLEN or OBUF, and only a command changes STATUS (R63, R68). -/
theorem writeWord_keeps {s : State} {off : Nat} (hoff : off ≠ regOffset .cmd) (v : Word) :
    (s.writeWord off v).status = s.status ∧ s.SameOutputs (s.writeWord off v) := by
  cases hb : s.status.busy with
  | true => rw [writeWord_busy hb]; exact ⟨rfl, rfl, rfl, rfl⟩
  | false =>
    obtain ⟨hcmd, -⟩ | ⟨-, hw⟩ := writeWord_idle hb off v
    · exact absurd hcmd hoff
    · rw [hw]; exact ⟨rfl, rfl, rfl, rfl⟩

/-- No byte write reaches STATUS, CFG, OLEN or OBUF (R65, R68). -/
theorem writeByte_keeps (s : State) (off : Nat) (v : Byte) :
    (s.writeByte off v).status = s.status ∧ s.SameOutputs (s.writeByte off v) := by
  unfold State.writeByte
  split
  · exact ⟨rfl, rfl, rfl, rfl⟩
  · split <;> exact ⟨rfl, rfl, rfl, rfl⟩

/-- The write to CMD while BUSY = 0 is the acceptance (R210). -/
theorem writeWord_cmd_idle {s : State} (hb : s.status.busy = false) (v : Word) :
    s.writeWord (regOffset .cmd) v = s.accept v := by
  obtain ⟨-, hw⟩ | ⟨hne, -⟩ := writeWord_idle hb (regOffset .cmd) v
  · exact hw
  · exact absurd rfl hne

/-! ### What a step does to STATUS and to the outputs -/

/-- A step that is no completion, no RESET and no acceptance: STATUS and the outputs stay. -/
structure State.QuietStep (s t : State) : Prop where
  noCompletion : s.status.busy = true → s.engineMoves = false
  noReset : s.resets = false
  noAcceptance : s.status.busy = false → s.issues = false
  status : t.status = s.status
  outputs : s.SameOutputs t

/-- A host move that writes no command is quiet when what it leaves, `u`, has the STATUS and the outputs of before. -/
theorem State.QuietStep.of_host {s t u : State} (hm : s.Mover false false false) (ht : t.block = u.block)
    (hu : u.status = s.status ∧ s.SameOutputs u) : s.QuietStep t where
  noCompletion _ := hm.engineMoves
  noReset := hm.resets
  noAcceptance _ := hm.issues
  status := (fields_of_block ht).1.trans hu.1
  outputs := hu.2.trans (.of_block ht)

/-- A step is the completion of the pending command, RESET, the acceptance of a command, or quiet. -/
theorem step_status_cases {s t : State} (h : step s = .next t) :
    (s.Mover true false false ∧ s.status.busy = true ∧
      completionStep (s.reschedule s.schedule.tail) = .next t) ∨
    (s.Mover false true false ∧ t.block = State.reset) ∨
    (s.Mover false false true ∧ s.status.busy = false ∧ t.status = s.status.accepted ∧ s.SameOutputs t) ∨
    s.QuietStep t := by
  obtain ⟨hm, he⟩ | hreset | ⟨hm, ht⟩ | ⟨v, hm, ht⟩ | ⟨off, v, hoff, hm, ht⟩ | ⟨off, v, -, hm, ht⟩ := step_cases h
  · cases hb : s.status.busy with
    | true => exact .inl ⟨hm, rfl, (engineTurn_busy (s := s.reschedule s.schedule.tail) hb).symm.trans he⟩
    | false =>
      cases (engineTurn_idle (s := s.reschedule s.schedule.tail) hb).symm.trans he
      exact .inr (.inr (.inr ⟨by simp [hb], hm.resets, fun _ => hm.issues, rfl, rfl, rfl, rfl⟩))
  · exact .inr (.inl hreset)
  · exact .inr (.inr (.inr (.of_host hm ht ⟨rfl, rfl, rfl, rfl⟩)))
  · cases hb : s.status.busy with
    | true =>
      rw [writeWord_busy hb] at ht
      exact .inr (.inr (.inr ⟨fun _ => hm.engineMoves, hm.resets, by simp [hb], (fields_of_block ht).1, .of_block ht⟩))
    | false =>
      rw [writeWord_cmd_idle hb] at ht
      exact .inr (.inr (.inl ⟨hm, rfl, (fields_of_block ht).1,
        .trans (t := s.accept v) ⟨rfl, rfl, rfl⟩ (.of_block ht)⟩))
  · exact .inr (.inr (.inr (.of_host hm ht (writeWord_keeps hoff v))))
  · exact .inr (.inr (.inr (.of_host hm ht (writeByte_keeps s off v))))

/-- RESET leaves the block of the reset state (R280). -/
theorem block_of_step_resets {s t : State} (h : step s = .next t) (hr : s.resets = true) : t.block = State.reset := by
  obtain ⟨hm, -⟩ | ⟨-, ht⟩ | ⟨hm, -⟩ | hq := step_status_cases h
  · exact absurd hr (by simp [hm.resets])
  · exact ht
  · exact absurd hr (by simp [hm.resets])
  · exact absurd hr (by simp [hq.noReset])

/-- The engine's move while BUSY = 1 is the completion step (R212). -/
theorem completionStep_of_step {s t : State} (h : step s = .next t) (hb : s.status.busy = true)
    (he : s.engineMoves = true) : completionStep (s.reschedule s.schedule.tail) = .next t := by
  obtain ⟨-, -, ht⟩ | ⟨hm, -⟩ | ⟨hm, -⟩ | hq := step_status_cases h
  · exact ht
  · exact absurd he (by simp [hm.engineMoves])
  · exact absurd he (by simp [hm.engineMoves])
  · exact absurd he (by simp [hq.noCompletion hb])

/-! ### Who writes CFG and CFGV -/

/-- The pending word is a CONFIG with a supported algorithm and a CODELEN of at least 6 (R180, R181). -/
def State.PendingConfig (s : State) : Prop :=
  ∃ (alg codelen : Byte) (a : HashAlg), decode s.lcmd = .ok (.config alg codelen) ∧
    HashAlg.ofCode alg = some a ∧ 6 ≤ codelen.toNat

/-- A completion step keeps CFGV and CFG, or it is the first CONFIG that raises no error (R29, R33). -/
theorem completionStep_configuration {s t : State} (h : completionStep s = .next t) :
    (t.status.cfgv = s.status.cfgv ∧ t.cfg = s.cfg) ∨ (s.status.cfgv = false ∧ s.PendingConfig) := by
  obtain ⟨e, ht⟩ | ⟨bytes, ht, -⟩ | ⟨alg, codelen, a, hd, hv, ha, hc, -⟩ | ht := completionStep_cases s
  · cases h.symm.trans ht; exact .inl ⟨rfl, rfl⟩
  · cases h.symm.trans ht; exact .inl ⟨rfl, rfl⟩
  · exact .inr ⟨hv, alg, codelen, a, hd, ha, hc⟩
  · cases h.symm.trans ht; exact .inl ⟨rfl, rfl⟩

/-- A legal CONFIG on an engine not yet constructed constructs it (R180, R182). -/
theorem completionStep_of_config {s : State} {alg codelen : Byte} {a : HashAlg} (hv : s.status.cfgv = false)
    (hd : decode s.lcmd = .ok (.config alg codelen)) (ha : HashAlg.ofCode alg = some a) (hc : 6 ≤ codelen.toNat) :
    completionStep s = .next (s.commonClear.construct a codelen).finish := by
  have hexec : completionStep s = execConfig alg codelen s := by simp only [completionStep, hd, exec]
  rw [hexec]
  obtain ⟨hlocked, -⟩ | ⟨-, hbad, -⟩ | ⟨a', -, ha', -, h⟩ := execConfig_cases alg codelen s
  · simp [hv] at hlocked
  · obtain hnone | hshort := hbad
    · simp [ha] at hnone
    · omega
  · obtain rfl : a = a' := Option.some.inj (ha.symm.trans ha')
    exact h

/-- Apart from RESET, a step keeps CFGV and CFG, or it completes the first CONFIG that raises no error (R29, R33). -/
theorem step_configuration {s t : State} (h : step s = .next t) (hr : s.resets = false) :
    (t.status.cfgv = s.status.cfgv ∧ t.cfg = s.cfg) ∨
    (s.status.cfgv = false ∧ s.status.busy = true ∧ s.engineMoves = true ∧ s.PendingConfig) := by
  obtain ⟨hm, hb, hc⟩ | ⟨hm, -⟩ | ⟨-, -, hst, hout⟩ | hq := step_status_cases h
  · exact (completionStep_configuration hc).imp_right fun ⟨hv, hp⟩ => ⟨hv, hb, hm.engineMoves, hp⟩
  · exact absurd hm.resets (by simp [hr])
  · exact .inl ⟨by rw [hst, Status.accepted_cfgv], hout.cfg⟩
  · exact .inl ⟨by rw [hq.status], hq.outputs.cfg⟩

/-! ### The statements -/

/-- Settles O1: every field of the reset state is the value R47 gives, and an empty buffer reads 0x00 everywhere. -/
theorem resetLeavesEverythingZero : Obligations.ResetLeavesEverythingZero :=
  ⟨by decide, by decide, rfl, rfl, rfl, rfl, rfl, rfl, fun i => ⟨Memory.read_nil i, Memory.read_nil i⟩⟩

/-- Settles O5, by the four kinds of step: a completion and RESET end with BUSY = 0, an acceptance with BUSY = 1, and a
quiet step keeps BUSY. -/
theorem busyChangesOnlyByAcceptanceCompletionReset : Obligations.BusyChangesOnlyByAcceptanceCompletionReset := by
  intro s t h
  obtain ⟨hm, hb, hc⟩ | ⟨hm, ht⟩ | ⟨hm, hb, hst, -⟩ | hq := step_status_cases h
  · obtain ⟨hbusy, -⟩ := completionStep_status hc
    simp [hbusy, hb, hm.engineMoves]
  · have hbusy : t.status.busy = false := congrArg (·.status.busy) ht
    simp [hbusy, hm.issues, hm.resets]
  · simp [hst, hb, hm.issues]
  · rw [hq.status]
    cases hb : s.status.busy with
    | true => simp [hq.noCompletion hb, hq.noReset]
    | false => simp [hq.noAcceptance hb]

/-- Settles O6: RESET clears both fields, every other step that is not the first legal CONFIG keeps both, and that
CONFIG writes both. -/
theorem configurationIsWrittenOncePerReset : Obligations.ConfigurationIsWrittenOncePerReset := by
  intro s t h
  refine ⟨fun hr => ?reset, fun hr hv => ?constructed, fun hr hv hchange => ?changed,
    fun alg codelen a hb he hv hd ha hc => ?constructs⟩
  case reset =>
    have ht := block_of_step_resets h hr
    exact ⟨congrArg (·.status.cfgv) ht, congrArg (·.cfg) ht⟩
  case constructed =>
    obtain ⟨hcfgv, hcfg⟩ | ⟨hv', -⟩ := step_configuration h hr
    · exact ⟨hcfgv.trans hv, hcfg⟩
    · exact absurd hv (by simp [hv'])
  case changed =>
    obtain ⟨hcfgv, hcfg⟩ | ⟨-, hb, he, hp⟩ := step_configuration h hr
    · simp [hcfgv, hcfg, hv] at hchange
    · exact ⟨hb, he, hp⟩
  case constructs =>
    have ht := completionStep_of_step h hb he
    rw [completionStep_of_config (s := s.reschedule s.schedule.tail) hv hd ha hc] at ht
    cases ht
    exact ⟨rfl, rfl⟩

end Sys2Proof.Machine
end

section
/-! The family of the memory statements: what each of the host's four accesses does at every offset of the window
(R62 to R65). One lemma turns a legal access at the head of the schedule into its operation, and one lemma for each
region of the window says what the operation does there. -/

namespace Sys2Proof.Machine

/-! ### A legal access as a step -/

section Access

variable {s : State} {off : Nat} {rest : List Event}

/-- The operation sees the schedule with the access taken off (R63). -/
theorem step_of_writeWord {v : Word} (halign : off % 4 = 0) (hoff : off ≤ 0x0FC)
    (hs : s.schedule = .access (.writeWord off v) :: rest) :
    step s = .next ((s.reschedule rest).writeWord off v) :=
  (step_of_cons hs).trans (if_pos ((wordAccess_iff off).2 ⟨halign, by omega⟩))

theorem step_of_writeByte {v : Byte} (hlow : 0x100 ≤ off) (hhigh : off ≤ 0x3FF)
    (hs : s.schedule = .access (.writeByte off v) :: rest) :
    step s = .next ((s.reschedule rest).writeByte off v) :=
  (step_of_cons hs).trans (if_pos ((byteAccess_iff off).2 ⟨hlow, by omega⟩))

/-- A read answers with the value the block holds, which does not depend on the schedule (R62). -/
theorem step_of_readWord (halign : off % 4 = 0) (hoff : off ≤ 0x0FC)
    (hs : s.schedule = .access (.readWord off) :: rest) :
    step s = .next ((s.reschedule rest).respond (.word off (s.wordAt off))) :=
  (step_of_cons hs).trans (if_pos ((wordAccess_iff off).2 ⟨halign, by omega⟩))

theorem step_of_readByte (hlow : 0x100 ≤ off) (hhigh : off ≤ 0x3FF)
    (hs : s.schedule = .access (.readByte off) :: rest) :
    step s = .next ((s.reschedule rest).respond (.byte off (s.byteAt off))) :=
  (step_of_cons hs).trans (if_pos ((byteAccess_iff off).2 ⟨hlow, by omega⟩))

end Access

/-! ### The register map -/

/-- Each register stands at its own offset (R23). -/
@[simp] theorem regAt_regOffset (r : Reg) : regAt (regOffset r) = some r := by
  cases r <;> rfl

/-- Every offset from 0x01C up is reserved (R23). -/
theorem regAt_reserved {off : Nat} (h : 0x01C ≤ off) : regAt off = none := by
  simp (disch := omega) only [regAt, if_neg]

theorem wordAt_regOffset (s : State) (r : Reg) : s.wordAt (regOffset r) = s.regValue r := by
  rw [State.wordAt, regAt_regOffset]

theorem wordAt_reserved (s : State) {off : Nat} (h : 0x01C ≤ off) : s.wordAt off = 0 := by
  rw [State.wordAt, regAt_reserved h]

/-- OLEN reads as LEN while BUSY = 0 (R36). -/
theorem regValue_olen_idle {s : State} (hb : s.status.busy = false) : s.regValue .olen = s.olen.setWidth 32 := by
  simp [State.regValue, hb]

/-- Bits 31:16 of OLEN read 0, even while its LEN is unspecified (R69). -/
theorem regValue_olen_high (s : State) : (s.regValue .olen).extractLsb' 16 16 = 0 := by
  apply BitVec.eq_of_getLsbD_eq
  intro i _
  simp [State.regValue]

/-! ### The buffers -/

section Buffers

variable {s : State} {off : Nat}

theorem byteAt_ibuf (h : off ≤ 0x1FF) : s.byteAt off = s.ibuf.read (off - 0x100) :=
  if_pos (by omega)

theorem byteAt_obuf_idle (hb : s.status.busy = false) (hlow : 0x200 ≤ off) (hhigh : off ≤ 0x39F) :
    s.byteAt off = s.obuf.read (off - 0x200) := by
  rw [State.byteAt, if_neg (by omega), if_pos (by omega), hb, if_neg Bool.false_ne_true]

theorem byteAt_tail (h : 0x3A0 ≤ off) : s.byteAt off = 0 := by
  rw [State.byteAt, if_neg (by omega), if_neg (by omega)]

end Buffers

/-- A byte write stores one IBUF byte at IBUF's own offsets while BUSY = 0, and is ignored otherwise (R65, R68). -/
theorem writeByte_cases (s : State) (off : Nat) (v : Byte) :
    ((s.status.busy = false ∧ off ≤ 0x1FF) ∧
      s.writeByte off v = { s with ibuf := s.ibuf.write (off - 0x100) v }) ∨
    (¬(s.status.busy = false ∧ off ≤ 0x1FF) ∧ s.writeByte off v = s) := by
  cases hb : s.status.busy with
  | true => exact .inr ⟨by simp, writeByte_busy hb off v⟩
  | false =>
    rw [State.writeByte, hb, if_neg Bool.false_ne_true]
    by_cases h : off < 0x200
    · exact .inl ⟨⟨rfl, by omega⟩, if_pos h⟩
    · exact .inr ⟨by omega, if_neg h⟩

/-! ### The statements -/

/-- Settles O10: a busy block ignores the write, and an idle one takes the two cases of `writeWord_idle`. -/
theorem wordWriteFollowsRegisterMap : Obligations.WordWriteFollowsRegisterMap := by
  intro s off v rest halign hoff hs
  rw [step_of_writeWord halign hoff hs]
  refine ⟨fun hb => ?busy, fun hb hcmd => ?command, fun hb hne => ?operand⟩
  case busy => rw [writeWord_busy (s := s.reschedule rest) hb]; rfl
  case command =>
    subst hcmd
    exact congrArg _ (writeWord_cmd_idle (s := s.reschedule rest) hb v)
  case operand =>
    obtain ⟨hcmd, -⟩ | ⟨-, hw⟩ := writeWord_idle (s := s.reschedule rest) hb off v
    · exact absurd hne (by simp [hcmd, regOffset])
    · rw [hw, BitVec.setWidth_eq_extractLsb' (by decide)]; rfl

/-- Settles O11, by the two cases of `writeByte_cases` and the law of a read after a write. -/
theorem byteWriteStoresOneInputByte : Obligations.ByteWriteStoresOneInputByte := by
  intro s off v rest hwf hlow hhigh hs
  refine ⟨_, step_of_writeByte hlow hhigh hs, ?_⟩
  obtain ⟨⟨hb, hoff⟩, hw⟩ | ⟨hignored, hw⟩ := writeByte_cases (s.reschedule rest) off v
  · rw [hw]
    refine ⟨rfl, Memory.wf_write hwf _ v, fun i => ?_⟩
    rw [State.reschedule_status] at hb
    simpa only [State.reschedule_ibuf, hb, hoff, true_and] using Memory.read_write hwf (off - 0x100) i v
  · rw [hw]
    exact ⟨rfl, hwf, fun i => (if_neg fun ⟨hb, hoff, _⟩ => hignored ⟨hb, hoff⟩).symm⟩

/-- Settles O13: each register reads its value at its own offset, and every other offset is reserved. -/
theorem wordReadReturnsRegister : Obligations.WordReadReturnsRegister := by
  intro s off rest halign hoff hs
  refine ⟨_, s.wordAt off, step_of_readWord halign hoff hs, rfl, rfl, rfl, ?status, ?cfg, ?ilen, ?olen, ?olenHigh,
    ?tstepLo, ?tstepHi, ?zero⟩
  case status => rintro rfl; exact wordAt_regOffset s .status
  case cfg => rintro rfl; exact wordAt_regOffset s .cfg
  case ilen => rintro rfl; exact wordAt_regOffset s .ilen
  case olen => rintro rfl hb; exact (wordAt_regOffset s .olen).trans (regValue_olen_idle hb)
  case olenHigh => rintro rfl; exact regValue_olen_high s
  case tstepLo => rintro rfl; exact wordAt_regOffset s .tstepLo
  case tstepHi => rintro rfl; exact wordAt_regOffset s .tstepHi
  case zero =>
    rintro (rfl | hreserved)
    · exact wordAt_regOffset s .cmd
    · exact wordAt_reserved s hreserved

/-- Settles O14: the read returns `byteAt`, whose three regions are IBUF, OBUF and the reserved tail. -/
theorem byteReadReturnsBufferByte : Obligations.ByteReadReturnsBufferByte := by
  intro s off rest hlow hhigh hs
  exact ⟨_, s.byteAt off, step_of_readByte hlow hhigh hs, rfl, rfl, rfl,
    byteAt_ibuf, fun hobuf hend hb => byteAt_obuf_idle hb hobuf hend, byteAt_tail⟩

end Sys2Proof.Machine
end

section
/-! The family of the Base32 statements: every outcome of B32DEC and B32ENC (R114, R124), which texts decode (R115 to
R117), and both directions of the codec as one number (R118, R125). The numbers meet in the bit string of the 5-bit
values: `valuesNat_eq` reads it as the values' base-32 number, `bitsOf_bytesOfValues` and `encodedValues_bits` as bytes. -/

namespace Sys2Proof.Machine

/-! ### The padding of a text (R115, R116) -/

/-- The text is its symbols and then its last `padCount` bytes. -/
theorem symbolsOf_append_drop (t : List Byte) : symbolsOf t ++ t.drop (t.length - padCount t) = t :=
  List.take_append_drop _ t

/-- The padding stands at the end exactly when none of it is among the symbols. -/
theorem padAtEnd_iff (t : List Byte) : padAtEnd t = true ↔ padChar ∉ symbolsOf t := by
  have hcount : (symbolsOf t).count padChar + (t.drop (t.length - padCount t)).count padChar = padCount t := by
    rw [← List.count_append, symbolsOf_append_drop, padCount]
  have hlen : (t.drop (t.length - padCount t)).length = padCount t := by
    have := padCount_le t
    rw [List.length_drop]; omega
  calc padAtEnd t = true
      ↔ ∀ c ∈ t.drop (t.length - padCount t), padChar = c := by
        simp only [padAtEnd, List.all_eq_true, beq_iff_eq, eq_comm (a := padChar)]
    _ ↔ (t.drop (t.length - padCount t)).count padChar = padCount t := by rw [← List.count_eq_length, hlen]
    _ ↔ (symbolsOf t).count padChar = 0 := by omega
    _ ↔ padChar ∉ symbolsOf t := List.count_eq_zero

/-- No padding is among the symbols exactly when each padding byte has one of the last `padCount` positions. -/
theorem padChar_notMem_symbolsOf (t : List Byte) :
    padChar ∉ symbolsOf t ↔ ∀ i, t[i]? = some padChar → t.length - padCount t ≤ i := by
  rw [symbolsOf, List.mem_iff_getElem?, not_exists]
  refine forall_congr' fun i => ?_
  by_cases hi : i < t.length - padCount t
  · rw [List.getElem?_take_of_lt hi, iff_comm, imp_iff_not (not_le.2 hi)]
  · simp [hi, not_lt.1 hi]

/-- Without its padding, a text whose padding stands at the end is its symbols (R117). -/
theorem filter_ne_padChar {t : List Byte} (h : padAtEnd t = true) : t.filter (· != padChar) = symbolsOf t := by
  have hsyms : (symbolsOf t).filter (· != padChar) = symbolsOf t :=
    List.filter_eq_self.2 fun c hc => bne_iff_ne.2 fun heq => (padAtEnd_iff t).1 h (heq ▸ hc)
  have hpads : (t.drop (t.length - padCount t)).filter (· != padChar) = [] :=
    List.filter_eq_nil_iff.2 fun c hc => by simpa using List.all_eq_true.1 h c hc
  conv_lhs => rw [← symbolsOf_append_drop t, List.filter_append, hsyms, hpads, List.append_nil]

/-! ### The bit string as a number -/

theorem bitsNat_replicate_false (n : Nat) : bitsNat (List.replicate n false) = 0 := by
  induction n with
  | zero => rfl
  | succ n ih => rw [List.replicate_succ, bitsNat_cons, ih]; simp

/-- Dropping the low bits of a bit string divides its number. -/
theorem bitsNat_take (n : Nat) (l : List Bool) : bitsNat (l.take n) = bitsNat l / 2 ^ (l.length - n) := by
  have hsplit := bitsNat_append (l.take n) (l.drop n)
  have hlow := bitsNat_lt (l.drop n)
  rw [List.take_append_drop, List.length_drop] at hsplit
  rw [List.length_drop] at hlow
  rw [hsplit, Nat.add_comm, Nat.add_mul_div_right _ _ (Nat.two_pow_pos _), Nat.div_eq_of_lt hlow, Nat.zero_add]

/-- The base-32 number of 5-bit values is the number of their bits. -/
theorem valuesNat_eq (values : List (BitVec 5)) :
    values.foldl (fun acc v => acc * 32 + v.toNat) 0 = bitsNat (values.flatMap fun v => bitsMsb 5 v.toNat) := by
  induction values using List.reverseRecOn with
  | nil => rfl
  | append_singleton values v ih =>
    rw [List.foldl_append, ih, List.flatMap_append, bitsNat_append, List.flatMap_singleton, bitsMsb_length,
      bitsNat_bitsMsb, Nat.mod_eq_of_lt v.isLt]
    rfl

/-- Slices read as numbers and written as bits again are the bits they cover. -/
theorem flatMap_bitsMsb_slices {k m : Nat} {l : List Bool} (h : k * m ≤ l.length) :
    ((slices k m l).flatMap fun g => bitsMsb k (BitVec.ofNat k (bitsNat g)).toNat) = l.take (k * m) := by
  have hid : ∀ g ∈ slices k m l, bitsMsb k (BitVec.ofNat k (bitsNat g)).toNat = g := fun g hg => by
    rw [BitVec.toNat_ofNat, bitsMsb_mod, bitsMsb_bitsNat (slices_mem_length h g hg)]
  rw [List.flatMap_congr hid, List.flatMap_id', slices_flatten]

/-- The decoded bytes are the whole bytes of the values' bits (R118). -/
theorem bitsOf_bytesOfValues (values : List (BitVec 5)) :
    bitsOf (bytesOfValues values) =
      (values.flatMap fun v => bitsMsb 5 v.toNat).take (8 * (5 * values.length / 8)) := by
  rw [bitsOf, bytesOfValues, List.flatMap_map]
  exact flatMap_bitsMsb_slices (by rw [length_valueBits]; omega)

/-! ### The encoded text (R125, R126) -/

theorem count_padChar_symbols (values : List (BitVec 5)) : (values.map b32sym).count padChar = 0 := by
  rw [List.count_eq_zero, List.mem_map]
  rintro ⟨v, -, hv⟩
  exact b32sym_ne_padChar v hv

theorem count_padChar_b32encode (b : List Byte) :
    (b32encode b).count padChar = (8 - symbolCount b.length % 8) % 8 := by
  rw [b32encode_eq, List.count_append, count_padChar_symbols, List.count_replicate_self, Nat.zero_add]

theorem b32encode_length (b : List Byte) :
    (b32encode b).length = symbolCount b.length + (8 - symbolCount b.length % 8) % 8 := by
  rw [b32encode_eq, List.length_append, List.length_map, encodedValues_length, List.length_replicate]

/-- The encoded values' number is the bytes' number with the appended zero bits. -/
theorem encodedValues_nat (b : List Byte) :
    (encodedValues b).foldl (fun acc v => acc * 32 + v.toNat) 0 =
      beNat b * 2 ^ (5 * symbolCount b.length - 8 * b.length) := by
  rw [valuesNat_eq, encodedValues_bits, bitsNat_append, List.length_replicate, bitsNat_replicate_false, ← beNat_bitsOf,
    Nat.add_zero]

/-! ### The statements -/

/-- Settles O37, by the three ends of `execB32dec_cases`: each premise leaves one of them. -/
theorem base32DecodeOutcomes : Obligations.Base32DecodeOutcomes := by
  intro s
  obtain ⟨hlong, h⟩ | ⟨hfits, hbad, h⟩ | ⟨bytes, hfits, hgood, hlen, h⟩ := execB32dec_cases s
  · exact ⟨fun _ => h, fun hle => absurd hlong (not_lt.2 hle), fun hle => absurd hlong (not_lt.2 hle)⟩
  · exact ⟨fun hlong => absurd hfits (not_le.2 hlong), fun _ _ _ => h,
      fun _ bytes hgood => (nomatch hbad.symm.trans hgood)⟩
  · refine ⟨fun hlong => absurd hfits (not_le.2 hlong), fun _ e hbad => (nomatch hgood.symm.trans hbad),
      fun _ bytes' hgood' => ?_⟩
    obtain rfl : bytes = bytes' := Except.ok.inj (hgood.symm.trans hgood')
    exact ⟨_, h, delivers_of_fits s (le_trans hlen (by decide))⟩

/-- Settles O38, by the two ends of `execB32enc_cases`. -/
theorem base32EncodeOutcomes : Obligations.Base32EncodeOutcomes := by
  intro s
  obtain ⟨hlong, h⟩ | ⟨hfits, hlen, h⟩ := execB32enc_cases s
  · exact ⟨fun _ => h, fun hle => absurd hlong (not_lt.2 hle)⟩
  · exact ⟨fun hlong => absurd hfits (not_le.2 hlong), fun _ => ⟨_, h, delivers_of_fits s hlen⟩⟩

/-- Settles O40: the decoder's three checks are the three conditions, the last one because the symbols are the bytes
that are no padding. -/
theorem decoderAcceptsExactly : Obligations.DecoderAcceptsExactly := by
  refine fun t => ⟨?_, fun e => b32decode_error⟩
  have hsymbols (hend : padAtEnd t = true) : (∃ values, (symbolsOf t).mapM b32val = some values) ↔
      ∀ c ∈ t, c ≠ padChar → (0x41 ≤ c.toNat ∧ c.toNat ≤ 0x5A) ∨ (0x32 ≤ c.toNat ∧ c.toNat ≤ 0x37) := by
    rw [mapM_isSome, ← filter_ne_padChar hend]
    simp only [List.mem_filter, bne_iff_ne, b32val_isSome, and_imp]
  calc (∃ out, b32decode t = .ok out)
      ↔ legalPadCount (padCount t) = true ∧ padAtEnd t = true ∧
          ∃ values, (symbolsOf t).mapM b32val = some values := by
        simp only [b32decode_eq_ok]
        exact ⟨fun ⟨_, hp, hend, values, hv, _⟩ => ⟨hp, hend, values, hv⟩,
          fun ⟨hp, hend, values, hv⟩ => ⟨_, hp, hend, values, hv, rfl⟩⟩
    _ ↔ _ := by
        rw [and_congr_right hsymbols, legalPadCount_iff, padAtEnd_iff, padChar_notMem_symbolsOf]
        rfl

/-- Settles O41: both numbers are read off the bits of the values, whose whole bytes are the result. -/
theorem decodedBytesAsOneNumber : Obligations.DecodedBytesAsOneNumber := by
  intro t out h
  obtain ⟨-, hend, values, hv, rfl⟩ := b32decode_eq_ok.1 h
  refine ⟨values, (congrArg (List.mapM b32val) (filter_ne_padChar hend)).trans hv, bytesOfValues_length values, ?_⟩
  rw [beNat_bitsOf, bitsOf_bytesOfValues, bitsNat_take, length_valueBits, bytesOfValues_length, valuesNat_eq]

/-- Settles O43: the symbols are those of `encodedValues`, and the two lengths are arithmetic on the symbol count. -/
theorem encodedLengthAndPadding : Obligations.EncodedLengthAndPadding := by
  intro b
  refine ⟨⟨encodedValues b, _, encodedValues_length b, b32encode_eq b, ?number⟩, ?length, ?padding⟩
  case number => rw [encodedValues_nat, encodedValues_length]
  case length => rw [b32encode_length, symbolCount]; omega
  case padding =>
    refine (count_padChar_b32encode b).trans ?_
    rw [symbolCount]
    split_ifs <;> omega

end Sys2Proof.Machine
end

section
/-! The family of the hash statements: the padded message of R143. Its zero bytes are counted by `hashPad_zeros`, and its
length field holds the length in bits, which fits 64 bits for a message R141 allows. -/

namespace Sys2Proof.Machine

/-! ### The length field (R10, R143) -/

@[simp] theorem tobe64_length (v : Nat) : (tobe64 v).length = 8 := toBytesBE_length 8 v

/-- A number of at most 64 bits is read back from its eight bytes. -/
theorem beNat_tobe64 {v : Nat} (h : v < 2 ^ 64) : beNat (tobe64 v) = v := by
  rw [tobe64, beNat_toBytesBE]
  exact Nat.mod_eq_of_lt h

/-! ### The padded message (R143) -/

/-- The padded message fills whole blocks: the fewest that hold it, the byte 0x80 and the length field. -/
theorem hashPad_length (m : List Byte) : (hashPad m).length = 64 * ((m.length + 8) / 64 + 1) := by
  simp only [hashPad, List.length_append, List.length_singleton, List.length_replicate, tobe64_length]
  exact (hashPad_zeros m.length).2

/-- Settles O47: the zeros and the field are those `hashPad` writes, and the bound of R141 keeps the length in bits below
2^64. -/
theorem paddedMessageShape : Obligations.PaddedMessageShape := by
  intro m hm
  have hbits : 8 * m.length < 2 ^ 64 := by omega
  exact ⟨hashPad_length m, _, tobe64 (8 * m.length), (hashPad_zeros m.length).1, rfl, tobe64_length _, beNat_tobe64 hbits⟩

end Sys2Proof.Machine
end

section
/-! The family of the one-time-code statements: every outcome of CONFIG and OTP (R180, R181, R184, R185), the key of a
malformed secret (R186), what OTP reads (R194), and dynamic truncation (R189). -/

namespace Sys2Proof.Machine

/-! ### The supported algorithm codes (R93, R181) -/

theorem ofCode_of_le_one {c : Byte} (h : c.toNat ≤ 1) :
    HashAlg.ofCode c = some (if c = 0 then .sha1 else .sha256) := by
  have hc : c = 0 ∨ c = 1 := by bv_omega
  obtain rfl | rfl := hc <;> rfl

theorem ofCode_eq_none {c : Byte} : HashAlg.ofCode c = none ↔ 2 ≤ c.toNat := by
  constructor
  · intro hnone
    by_contra hle
    exact nomatch hnone.symm.trans (ofCode_of_le_one (by omega))
  · intro hge
    refine Option.eq_none_iff_forall_ne_some.2 fun a ha => ?_
    obtain ⟨rfl, -⟩ | ⟨rfl, -⟩ := ofCode_eq_some.1 ha <;> exact absurd hge (by decide)

/-! ### The three ends of OTP, each from its premise (R184, R185) -/

section Otp

variable {s : State}

theorem execOtp_unconfigured (hv : s.status.cfgv = false) : execOtp s = .next (s.failedWith .notConfigured) := by
  obtain ⟨-, h⟩ | ⟨hv', -⟩ | ⟨hv', -⟩ := execOtp_cases s
  · exact h
  · exact nomatch hv.symm.trans hv'
  · exact nomatch hv.symm.trans hv'

theorem execOtp_tooLong (hv : s.status.cfgv = true) (hlong : 256 < s.ilen.toNat) :
    execOtp s = .next (s.failedWith .lengthError) := by
  obtain ⟨hv', -⟩ | ⟨-, -, h⟩ | ⟨-, hfits, -⟩ := execOtp_cases s
  · exact nomatch hv.symm.trans hv'
  · exact h
  · exact absurd hlong (not_lt.2 hfits)

theorem execOtp_code (hv : s.status.cfgv = true) (hfits : s.ilen.toNat ≤ 256) :
    execOtp s = .next (s.commonClear.deliver
      (computeCode s.cfg.alg s.cfg.codelen.toNat s.input s.tstepLo)).finish := by
  obtain ⟨hv', -⟩ | ⟨-, hlong, -⟩ | ⟨-, -, h⟩ := execOtp_cases s
  · exact nomatch hv.symm.trans hv'
  · exact absurd hfits (not_le.2 hlong)
  · exact h

/-- A code of CODELEN digits fits OBUF, so OTP delivers it whole (R44). -/
theorem execOtp_delivers (hv : s.status.cfgv = true) (hfits : s.ilen.toNat ≤ 256) :
    ∃ t, execOtp s = .next t ∧ Delivers s t (computeCode s.cfg.alg s.cfg.codelen.toNat s.input s.tstepLo) := by
  refine ⟨_, execOtp_code hv hfits, delivers_of_fits s ?_⟩
  have hcodelen := s.cfg.codelen.isLt
  rw [computeCode_length, Config.obufBytes]
  omega

end Otp

/-! ### Dynamic truncation (R189) -/

/-- The number of four bytes, written out (R10). -/
theorem be32_four_toNat (b0 b1 b2 b3 : Byte) :
    (be32 [b0, b1, b2, b3]).toNat = b0.toNat * 2 ^ 24 + b1.toNat * 2 ^ 16 + b2.toNat * 2 ^ 8 + b3.toNat := by
  have hvalue : beNat [b0, b1, b2, b3] =
      b0.toNat * 2 ^ 24 + b1.toNat * 2 ^ 16 + b2.toNat * 2 ^ 8 + b3.toNat := by
    simp only [beNat, List.foldl_cons, List.foldl_nil]
    ring
  have hlt : beNat [b0, b1, b2, b3] < 2 ^ 32 := by simpa using beNat_lt [b0, b1, b2, b3]
  rw [be32, BitVec.toNat_ofNat, Nat.mod_eq_of_lt hlt, hvalue]

/-- Clearing bit 31 leaves the number modulo 2^31. -/
theorem toNat_clearBit31 (p : Word) : (p &&& 0x7FFFFFFF).toNat = p.toNat % 2 ^ 31 := by
  rw [BitVec.toNat_and]
  exact Nat.and_two_pow_sub_one_eq_mod p.toNat 31

theorem take_four_drop {α : Type} {l : List α} {n : Nat} (h : n + 3 < l.length) :
    (l.drop n).take 4 = [l[n], l[n + 1], l[n + 2], l[n + 3]] := by
  rw [List.drop_eq_getElem_cons (by omega), List.drop_eq_getElem_cons (by omega),
    List.drop_eq_getElem_cons (by omega), List.drop_eq_getElem_cons (by omega)]
  rfl

theorem truncOffset_eq {mac : List Byte} (h : mac.length - 1 < mac.length) :
    truncOffset mac = mac[mac.length - 1].toNat % 16 := by
  rw [truncOffset, List.getD_eq_getElem _ _ h, BitVec.toNat_and]
  exact Nat.and_two_pow_sub_one_eq_mod _ 4

theorem truncateMac_eq {mac : List Byte} (h : truncOffset mac + 3 < mac.length) :
    truncateMac mac = (mac[truncOffset mac].toNat * 2 ^ 24 + mac[truncOffset mac + 1].toNat * 2 ^ 16 +
      mac[truncOffset mac + 2].toNat * 2 ^ 8 + mac[truncOffset mac + 3].toNat) % 2 ^ 31 := by
  rw [truncateMac, toNat_clearBit31, take_four_drop h, be32_four_toNat]

/-! ### The statements -/

/-- Settles O35, by the three ends of `execConfig_cases`: each premise leaves one of them. -/
theorem configOutcomes : Obligations.ConfigOutcomes := by
  intro s alg codelen
  obtain ⟨hv, h⟩ | ⟨hv, hbad, h⟩ | ⟨a, hv, ha, hc, h⟩ := execConfig_cases alg codelen s
  · exact ⟨fun _ => h, by simp [hv], by simp [hv]⟩
  · rw [ofCode_eq_none] at hbad
    exact ⟨by simp [hv], fun _ _ => h, fun _ halg hc => by omega⟩
  · have halg : ¬2 ≤ alg.toNat := fun hge => nomatch ha.symm.trans (ofCode_eq_none.2 hge)
    refine ⟨by simp [hv], fun _ hbad => by omega, fun _ hle _ => ?_⟩
    obtain rfl := Option.some.inj (ha.symm.trans (ofCode_of_le_one hle))
    exact h

/-- Settles O44: one end of OTP for each premise, and a code of exactly CODELEN digits. -/
theorem otpOutcomes : Obligations.OtpOutcomes := by
  refine fun s => ⟨execOtp_unconfigured, execOtp_tooLong, fun hv hfits => ?_⟩
  obtain ⟨t, h, hdelivers⟩ := execOtp_delivers hv hfits
  exact ⟨t, h, hdelivers, hdelivers.length.trans (computeCode_length _ _ _ _)⟩

/-- Settles O45: in both cases `keyOf` is the key, and OTP delivers the code it gives. -/
theorem malformedSecretActsAsEmptyKey : Obligations.MalformedSecretActsAsEmptyKey := by
  intro s key hv hfits hkey
  have hkeyOf : keyOf s.input = key := by
    obtain hgood | ⟨hbad, rfl⟩ := hkey
    · exact keyOf_of_ok hgood
    · exact keyOf_of_error hbad
  obtain ⟨t, h, hdelivers⟩ := execOtp_delivers hv hfits
  refine ⟨t, h, by rw [hdelivers.status], by rw [hdelivers.status], ?_⟩
  rw [hdelivers.result, computeCode, hkeyOf]

/-- Settles O46: the operands choose the end of OTP, and each end writes STATUS, OLEN and OBUF from them alone. -/
theorem otpDependsOnItsOperandsOnly : Obligations.OtpDependsOnItsOperandsOnly := by
  intro s s' hcfg hcfgv hilen htstep hibuf
  cases hv : s.status.cfgv with
  | false =>
    have hv' : s'.status.cfgv = false := hcfgv ▸ hv
    exact ⟨_, _, execOtp_unconfigured hv, execOtp_unconfigured hv', by simp [hcfgv], rfl, rfl⟩
  | true =>
    have hv' : s'.status.cfgv = true := hcfgv ▸ hv
    by_cases hfits : s.ilen.toNat ≤ 256
    · have hinput : s.input = s'.input := by
        rw [State.input, State.input, ← hilen, Memory.readBytes_congr hibuf]
      refine ⟨_, _, execOtp_code hv hfits, execOtp_code hv' (hilen ▸ hfits), ?_, ?_, ?_⟩
      · simp [Status.succeeded, hcfgv]
      · simp [hcfg]
      · simp [hcfg, hinput, htstep]
    · have hlong := not_le.1 hfits
      exact ⟨_, _, execOtp_tooLong hv hlong, execOtp_tooLong hv' (hilen ▸ hlong), by simp [hcfgv], rfl, rfl⟩

/-- Settles O50: the offset is at most 15, so the four selected bytes lie inside a MAC of 20 bytes or more. -/
theorem truncationSelectsInsideTheMac : Obligations.TruncationSelectsInsideTheMac := by
  intro mac hlen
  have hoff := truncOffset_lt mac
  exact ⟨truncOffset mac, _, _, _, _, _, List.getElem?_eq_getElem (by omega), truncOffset_eq (by omega), by omega,
    List.getElem?_eq_getElem (by omega), List.getElem?_eq_getElem (by omega), List.getElem?_eq_getElem (by omega),
    List.getElem?_eq_getElem (by omega), truncateMac_eq (by omega)⟩

end Sys2Proof.Machine
end

section
/-! The family of the control statements: the acceptance of a command word (R210), the writes a busy block ignores (R68,
R211), the completion of an illegal word (R215) and CLEAR (R214). The host's side is an access at the head of the
schedule, the engine's side a turn with the engine first or with nothing scheduled. -/

namespace Sys2Proof.Machine

/-! ### The engine's turn as a step -/

section EngineTurn

variable {s : State}

/-- With nothing scheduled the completion step is the next move (R212; log 1). -/
theorem step_of_nil_busy (hb : s.status.busy = true) (hs : s.schedule = []) : step s = completionStep s :=
  (step_of_nil hs).trans (engineTurn_busy hb)

/-- A scheduled completion step sees the schedule with the engine's turn taken off (R212). -/
theorem step_of_engine_busy {rest : List Event} (hb : s.status.busy = true) (hs : s.schedule = .engine :: rest) :
    step s = completionStep (s.reschedule rest) :=
  (step_of_cons hs).trans (engineTurn_busy hb)

theorem completionStep_of_illegal {e : IllegalWord} (hd : decode s.lcmd = .error e) :
    completionStep s = .next (s.failedWith .illegalCommand) := by
  simp only [completionStep, hd, illegal_eq]

end EngineTurn

/-! ### The statements -/

/-- Settles O9: the write is a legal access, and at CMD while BUSY = 0 it is the acceptance. -/
theorem acceptanceLatchesTheWord : Obligations.AcceptanceLatchesTheWord := by
  intro s w rest hb hs
  rw [step_of_writeWord (by decide) (by decide) hs]
  exact congrArg _ (writeWord_cmd_idle (s := s.reschedule rest) hb w)

/-- Settles O12: taking the access off the schedule leaves BUSY set, so either write leaves the state it finds. -/
theorem busyIgnoresEveryWrite : Obligations.BusyIgnoresEveryWrite := by
  intro s off v b rest hb
  refine ⟨fun halign hoff hs => ?word, fun hlow hhigh hs => ?byte⟩
  case word =>
    rw [step_of_writeWord halign hoff hs, writeWord_busy (s := s.reschedule rest) hb]
    rfl
  case byte =>
    rw [step_of_writeByte hlow hhigh hs, writeByte_busy (s := s.reschedule rest) hb]
    rfl

/-- Settles O28: both forms of the engine's move are the completion step, whose decoder finds no command. -/
theorem illegalWordRaisesIllegalCommand : Obligations.IllegalWordRaisesIllegalCommand := by
  intro s e hb hd
  refine ⟨fun hs => ?unscheduled, fun rest hs => ?scheduled⟩
  case unscheduled =>
    rw [step_of_nil_busy hb hs, completionStep_of_illegal hd]
    rfl
  case scheduled =>
    rw [step_of_engine_busy hb hs, completionStep_of_illegal (s := s.reschedule rest) hd]
    rfl

/-- Settles O36: CLEAR has one end, in which both buffers are empty and so read 0x00 everywhere. -/
theorem clearZeroisesOperandsAndResult : Obligations.ClearZeroisesOperandsAndResult := fun s =>
  ⟨s.commonClear.zeroise.finish, execClear_eq s, fun a => ⟨Memory.read_nil a, Memory.read_nil a⟩,
    rfl, rfl, rfl, rfl, rfl, rfl, rfl, rfl, rfl, rfl⟩

end Sys2Proof.Machine
end

section
/-! The family of the host procedures: the comparison (R228) and the secret generator (R229 to R231), which are pure
functions outside the block. -/

namespace Sys2Proof.Machine

/-! ### The comparison -/

/-- The OR-accumulator of R228 ends at zero exactly when it began there and no pair differs. -/
theorem foldl_or_xor_eq_zero_iff (pairs : List (Byte × Byte)) (acc : Byte) :
    pairs.foldl (fun acc p => acc ||| (p.1 ^^^ p.2)) acc = 0 ↔ acc = 0 ∧ ∀ p ∈ pairs, p.1 = p.2 := by
  induction pairs generalizing acc with
  | nil => simp
  | cons p pairs ih =>
    rw [List.foldl_cons, ih, List.forall_mem_cons, ← and_assoc]
    exact and_congr_left' (BitVec.or_eq_zero_iff.trans (and_congr_right' BitVec.xor_eq_zero_iff))

theorem eq_iff_zip {α : Type} {a b : List α} : a = b ↔ a.length = b.length ∧ ∀ p ∈ a.zip b, p.1 = p.2 := by
  rw [← List.forall₂_eq_eq_eq, List.forall₂_iff_zip, Prod.forall]

/-! ### The secret generator -/

section CreateSecret

variable {length : Nat}

theorem createSecret_rangeError (entropy : Option (Nat → Byte)) (h : length < 16 ∨ 128 < length) :
    createSecret entropy length = .error .rangeError :=
  if_pos h

theorem createSecret_none (hmin : 16 ≤ length) (hmax : length ≤ 128) :
    createSecret none length = .error .randomnessUnavailable :=
  if_neg (not_or.2 ⟨not_lt.2 hmin, not_lt.2 hmax⟩)

theorem createSecret_some (random : Nat → Byte) (hmin : 16 ≤ length) (hmax : length ≤ 128) :
    createSecret (some random) length = .ok ((List.range length).map fun i => secretSymbol (random i)) :=
  if_neg (not_or.2 ⟨not_lt.2 hmin, not_lt.2 hmax⟩)

end CreateSecret

/-- The decoder's alphabet reads back what the encoder's writes (R112). -/
theorem b32val_b32sym : ∀ v : BitVec 5, b32val (b32sym v) = some v := by decide

/-- R231 keeps the low five bits of a random byte. -/
theorem toNat_lowFiveBits (b : Byte) : ((b &&& 0x1F).setWidth 5).toNat = b.toNat % 32 := by
  have hlow : (b &&& 0x1F).toNat = b.toNat % 32 := by
    rw [BitVec.toNat_and]
    exact Nat.and_two_pow_sub_one_eq_mod b.toNat 5
  rw [BitVec.toNat_setWidth, hlow]
  exact Nat.mod_mod _ _

/-- The symbol of a random byte has the value of the byte modulo 32 (R231). -/
theorem b32val_secretSymbol (b : Byte) : ∃ v, b32val (secretSymbol b) = some v ∧ v.toNat = b.toNat % 32 :=
  ⟨_, b32val_b32sym _, toNat_lowFiveBits b⟩

/-! ### The statements -/

/-- Settles O54: past the length test, a zero accumulator says that the two strings agree pair by pair. -/
theorem constantTimeCompareIsEquality : Obligations.ConstantTimeCompareIsEquality := by
  intro a b
  rw [timingSafeEquals, eq_iff_zip]
  split
  case isTrue hne => simp [hne]
  case isFalse heq => simpa [not_not.1 heq] using foldl_or_xor_eq_zero_iff (a.zip b) 0

/-- Settles O57, by the three ends of `createSecret`. -/
theorem generatedSecretShape : Obligations.GeneratedSecretShape := by
  intro random length
  refine ⟨fun hmin hmax => ⟨createSecret_none hmin hmax, _, createSecret_some random hmin hmax, by simp, ?_⟩,
    createSecret_rangeError (some random)⟩
  intro i hi
  obtain ⟨v, hval, hv⟩ := b32val_secretSymbol (random i)
  exact ⟨_, v, by simp [hi], hval, hv⟩

end Sys2Proof.Machine
end

section
/-! The family of the errors: a command's completion step raises one error, or it ends by `finish` (R256). -/

namespace Sys2Proof.Machine

/-- A completion step that raises no error ends by `finish`, whatever it wrote before. -/
theorem exec_raises_or_finishes (i : Instr) (s : State) :
    (∃ e, exec i s = .next (s.failedWith e)) ∨ (∃ u : State, exec i s = .next u.finish) := by
  obtain hraise | ⟨bytes, hresult, -⟩ | ⟨alg, codelen, a, -, -, -, -, hconstruct⟩ | ⟨-, hclear⟩ := exec_cases i s
  · exact .inl hraise
  · exact .inr ⟨_, hresult⟩
  · exact .inr ⟨_, hconstruct⟩
  · exact .inr ⟨_, hclear⟩

/-! ### The statement -/

/-- Settles O32: raising leaves exactly `failedWith`, and `finish` writes a STATUS without an error. -/
theorem commandsAreAllOrNothing : Obligations.CommandsAreAllOrNothing := by
  intro i s t h
  obtain ⟨e, hraise⟩ | ⟨u, hfinish⟩ := exec_raises_or_finishes i s
  · cases h.symm.trans hraise
    exact .inl ⟨rfl, e, rfl⟩
  · cases h.symm.trans hfinish
    exact .inr ⟨rfl, rfl, rfl, rfl⟩

end Sys2Proof.Machine
end

section
/-! The family of the reset statements: RESET as a step, for an idle block and for a pending command alike (R280). -/

namespace Sys2Proof.Machine

/-- Whatever the block held, and so whatever was pending, RESET leaves it as R47 says (R280, R281). -/
@[simp] theorem State.resetEvent_block (s : State) : s.resetEvent.block = State.reset := rfl

/-- RESET at the head of the schedule cannot fail, and BUSY does not delay it (R280). -/
theorem step_of_reset {s : State} {rest : List Event} (hs : s.schedule = .reset :: rest) :
    step s = .next (s.reschedule rest).resetEvent :=
  step_of_cons hs

/-! ### The statement -/

/-- Settles O2: the step is the RESET event, whose block is that of the reset state. -/
theorem resetEventRestoresResetState : Obligations.ResetEventRestoresResetState := by
  intro s rest hs
  exact ⟨_, step_of_reset hs, State.resetEvent_block _⟩

end Sys2Proof.Machine
end

section
/-! The family of the invariant: what a completion step leaves is said once (`State.Ended`), and the invariant and the
statements about completion, sticky errors and results (R26 to R31, R36, R43, R255, R260) are read off it. -/

namespace Sys2Proof.Machine

/-! ### What a completion step leaves -/

/-- STATUS and the outputs after a completion step: the block is done, it holds a result that fits OBUF or an error with
nothing behind it (R31, R43, R256). -/
structure State.Ended (t : State) : Prop where
  busy : t.status.busy = false
  done : t.status.done = true
  errIff : t.status.err = true ↔ t.status.errcode ≠ 0
  errcodeMax : t.status.errcode.toNat ≤ 6
  errClears : t.status.err = true → t.olen = 0 ∧ t.obuf = []
  obufWf : t.obuf.wf
  obufWithin : t.obuf.within Config.obufBytes
  olenMax : t.olen.toNat ≤ Config.obufBytes
  obufTail : ∀ i, t.olen.toNat ≤ i → t.obuf.read i = 0

/-- The codes of R254 are 1 to 6. -/
theorem ErrorName.code_range (e : ErrorName) : e.code ≠ 0 ∧ e.code.toNat ≤ 6 := by
  cases e <;> decide

/-- An error leaves no result. -/
theorem ended_failedWith (s : State) (e : ErrorName) : (s.failedWith e).Ended where
  busy := rfl
  done := rfl
  errIff := iff_of_true rfl e.code_range.1
  errcodeMax := e.code_range.2
  errClears _ := ⟨rfl, rfl⟩
  obufWf := Memory.wf_nil
  obufWithin := List.forall_mem_nil _
  olenMax := Nat.zero_le _
  obufTail i _ := Memory.read_nil i

/-- `finish` writes a STATUS without an error, so what is left is that the outputs fit. -/
theorem ended_finish {s : State} (hwf : s.obuf.wf) (hwithin : s.obuf.within Config.obufBytes)
    (holen : s.olen.toNat ≤ Config.obufBytes) (htail : ∀ i, s.olen.toNat ≤ i → s.obuf.read i = 0) :
    s.finish.Ended where
  busy := rfl
  done := rfl
  errIff := iff_of_false Bool.false_ne_true (not_not.2 rfl)
  errcodeMax := Nat.zero_le 6
  errClears herr := absurd herr Bool.false_ne_true
  obufWf := hwf
  obufWithin := hwithin
  olenMax := holen
  obufTail := htail

theorem ended_deliver (s : State) {bytes : List Byte} (h : bytes.length ≤ Config.obufBytes) :
    (s.commonClear.deliver bytes).finish.Ended := by
  obtain ⟨hwf, hwithin⟩ := deliver_obuf s h
  have hd := delivers_of_fits s h
  have hlen := hd.length
  exact ended_finish hwf hwithin (hlen.le.trans h) fun i hi => hd.tail i (hlen.ge.trans hi)

/-- A completion that delivers nothing leaves the cleared outputs (R213). -/
theorem ended_finish_cleared {s : State} (hobuf : s.obuf = []) (holen : s.olen = 0) : s.finish.Ended :=
  ended_finish (hobuf ▸ Memory.wf_nil) (hobuf ▸ List.forall_mem_nil _) (by simp [holen])
    fun i _ => by rw [hobuf, Memory.read_nil]

theorem exec_ended {i : Instr} {s t : State} (h : exec i s = .next t) : t.Ended := by
  obtain ⟨e, ht⟩ | ⟨bytes, ht, hfits⟩ | ⟨alg, codelen, a, -, -, -, -, ht⟩ | ⟨-, ht⟩ := exec_cases i s
  · cases h.symm.trans ht; exact ended_failedWith s e
  · cases h.symm.trans ht; exact ended_deliver s hfits
  · cases h.symm.trans ht; exact ended_finish_cleared rfl rfl
  · cases h.symm.trans ht; exact ended_finish_cleared rfl rfl

/-- The completion step is the decoded command's, or an illegal word's error (R212, R215). -/
theorem completionStep_of_decode {s : State} {i : Instr} (hd : decode s.lcmd = .ok i) :
    completionStep s = exec i s := by
  simp only [completionStep, hd]

theorem completionStep_ended {s t : State} (h : completionStep s = .next t) : t.Ended := by
  cases hd : decode s.lcmd with
  | ok i => exact exec_ended ((completionStep_of_decode hd).symm.trans h)
  | error e =>
    cases h.symm.trans (completionStep_of_illegal hd)
    exact ended_failedWith s .illegalCommand

theorem State.Ended.completed {t : State} (h : t.Ended) : t.Completed where
  busy := h.busy
  done := h.done
  errIff := h.errIff
  errClears herr := by
    obtain ⟨holen, hobuf⟩ := h.errClears herr
    exact ⟨holen, fun a => by rw [hobuf, Memory.read_nil]⟩

/-! ### The invariant -/

/-- The reset state: empty buffers, no result, no error, not configured (R47). -/
theorem inv_reset : State.reset.Inv where
  ibufWf := Memory.wf_nil
  ibufWithin := List.forall_mem_nil _
  obufWf := Memory.wf_nil
  obufWithin := List.forall_mem_nil _
  olenMax := Nat.zero_le _
  obufTail i _ := Memory.read_nil i
  busyNotDone := by decide
  busyNoError := by decide
  errIff := by decide
  errcodeMax := by decide
  errClears := by decide
  cfgLegal := by decide
  cfgClear _ := rfl
  fresh _ _ := ⟨rfl, rfl, rfl⟩

namespace State.Inv

variable {s t : State}

/-- The environment is no part of the invariant. -/
theorem of_block (h : s.Inv) (ht : t.block = s.block) : t.Inv := by
  have hblock : t.block.Inv := ht ▸ { h with }
  exact { hblock with }

/-- Acceptance sets BUSY and clears DONE and the error (R210). -/
theorem accept (h : s.Inv) (w : Word) : (s.accept w).Inv where
  __ := h
  busyNotDone := by simp
  busyNoError _ := ⟨rfl, rfl⟩
  errIff := iff_of_false Bool.false_ne_true (not_not.2 rfl)
  errcodeMax := Nat.zero_le 6
  errClears herr := absurd herr Bool.false_ne_true
  fresh hbusy := nomatch hbusy

/-- A word write accepts a command or reaches operand registers alone, of which the invariant says nothing (R63). -/
theorem writeWord (h : s.Inv) (off : Nat) (v : Word) : (s.writeWord off v).Inv := by
  cases hb : s.status.busy with
  | true => rwa [writeWord_busy hb]
  | false =>
    obtain ⟨-, hw⟩ | ⟨-, hw⟩ := writeWord_idle hb off v
    · rw [hw]; exact h.accept v
    · rw [hw]; exact { h with }

/-- A byte write reaches one byte of IBUF at most (R65). -/
theorem writeByte (h : s.Inv) {off : Nat} (hlow : 0x100 ≤ off) (v : Byte) : (s.writeByte off v).Inv := by
  obtain ⟨⟨-, hoff⟩, hw⟩ | ⟨-, hw⟩ := writeByte_cases s off v
  · have hindex : off - 0x100 < Config.ibufBytes := by simp only [Config.ibufBytes]; omega
    rw [hw]
    exact { h with
      ibufWf := Memory.wf_write h.ibufWf _ v
      ibufWithin := Memory.within_write h.ibufWithin hindex v }
  · rwa [hw]

/-- The completion step of a block that meets the invariant: the outputs are those of `Ended`, IBUF is kept or zeroised,
and the configuration is kept or a legal one is written (R182). -/
theorem of_ended (h : s.Inv) (ht : t.Ended) (hibuf : t.ibuf = s.ibuf ∨ t.ibuf = [])
    (hcfg : (t.status.cfgv = s.status.cfgv ∧ t.cfg = s.cfg) ∨
      (t.status.cfgv = true ∧ Config.codeLenMin ≤ t.cfg.codelen.toNat)) : t.Inv where
  ibufWf := by
    obtain hibuf | hibuf := hibuf <;> rw [hibuf]
    · exact h.ibufWf
    · exact Memory.wf_nil
  ibufWithin := by
    obtain hibuf | hibuf := hibuf <;> rw [hibuf]
    · exact h.ibufWithin
    · exact List.forall_mem_nil _
  obufWf := ht.obufWf
  obufWithin := ht.obufWithin
  olenMax := ht.olenMax
  obufTail := ht.obufTail
  busyNotDone := by simp [ht.busy]
  busyNoError := by simp [ht.busy]
  errIff := ht.errIff
  errcodeMax := ht.errcodeMax
  errClears := ht.errClears
  cfgLegal hv := by
    obtain ⟨hkeep, hcfg⟩ | ⟨-, hlegal⟩ := hcfg
    · exact hcfg ▸ h.cfgLegal (hkeep ▸ hv)
    · exact hlegal
  cfgClear hv := by
    obtain ⟨hkeep, hcfg⟩ | ⟨hset, -⟩ := hcfg
    · exact hcfg ▸ h.cfgClear (hkeep ▸ hv)
    · exact nomatch hv.symm.trans hset
  fresh _ hdone := nomatch hdone.symm.trans ht.done

theorem of_completionStep (h : s.Inv) (hstep : completionStep s = .next t) : t.Inv := by
  have hend := completionStep_ended hstep
  obtain ⟨e, ht⟩ | ⟨bytes, ht, -⟩ | ⟨alg, codelen, a, -, -, -, hc, ht⟩ | ht := completionStep_cases s
  · cases hstep.symm.trans ht; exact h.of_ended hend (.inl rfl) (.inl ⟨rfl, rfl⟩)
  · cases hstep.symm.trans ht; exact h.of_ended hend (.inl rfl) (.inl ⟨rfl, rfl⟩)
  · cases hstep.symm.trans ht; exact h.of_ended hend (.inl rfl) (.inr ⟨rfl, hc⟩)
  · cases hstep.symm.trans ht; exact h.of_ended hend (.inr rfl) (.inl ⟨rfl, rfl⟩)

theorem of_engineTurn (h : s.Inv) (hturn : engineTurn s = .next t) : t.Inv := by
  cases hb : s.status.busy with
  | true => exact h.of_completionStep ((engineTurn_busy hb).symm.trans hturn)
  | false => cases (engineTurn_idle hb).symm.trans hturn; exact h

end State.Inv

/-! ### The statements -/

/-- Settles O3: every buffer is empty and every register 0. -/
theorem resetStateMeetsInvariant : Obligations.ResetStateMeetsInvariant := inv_reset

/-- Settles O4, by the kinds of step: the engine's turn, RESET, a move that leaves the block alone, and the host's
writes. -/
theorem everyStepKeepsInvariant : Obligations.EveryStepKeepsInvariant := by
  intro s t h hstep
  obtain ⟨-, hturn⟩ | ⟨-, ht⟩ | ⟨-, ht⟩ | ⟨v, -, ht⟩ | ⟨off, v, -, -, ht⟩ | ⟨off, v, hlow, -, ht⟩ := step_cases hstep
  · exact State.Inv.of_engineTurn (s := s.reschedule s.schedule.tail) (h.of_block rfl) hturn
  · exact inv_reset.of_block ht
  · exact h.of_block ht
  · exact (h.writeWord _ v).of_block ht
  · exact (h.writeWord off v).of_block ht
  · exact (h.writeByte hlow v).of_block ht

/-- Settles O7: an acceptance and a quiet step keep the outputs, so the step was a completion or RESET. -/
theorem resultsChangeOnlyByCompletionOrReset : Obligations.ResultsChangeOnlyByCompletionOrReset := by
  intro s t hstep hchange
  have hkeeps (hout : s.SameOutputs t) : ¬(t.olen ≠ s.olen ∨ ∃ i, t.obuf.read i ≠ s.obuf.read i) := by
    simp [hout.olen, hout.obuf]
  obtain ⟨hm, hb, -⟩ | ⟨hm, -⟩ | ⟨-, -, -, hout⟩ | hq := step_status_cases hstep
  · exact .inl ⟨hb, hm.engineMoves⟩
  · exact .inr hm.resets
  · exact absurd hchange (hkeeps hout)
  · exact absurd hchange (hkeeps hq.outputs)

/-- Settles O8, by the four kinds of step: of them only a quiet one keeps STATUS. -/
theorem errorStaysUntilNextCommand : Obligations.ErrorStaysUntilNextCommand := by
  intro s t hstep hchange
  obtain ⟨hm, hb, -⟩ | ⟨hm, ht⟩ | ⟨hm, hb, hst, -⟩ | hq := step_status_cases hstep
  · exact .inr (.inl ⟨hb, hm.engineMoves⟩)
  · exact .inr (.inr ⟨hm.resets, congrArg (·.status.err) ht, congrArg (·.status.errcode) ht⟩)
  · exact .inl ⟨hb, hm.issues, by rw [hst, Status.accepted_err], by rw [hst, Status.accepted_errcode]⟩
  · simp [hq.status] at hchange

/-- Settles O30: every command's completion step ends in `Ended`, and the engine's move while BUSY = 1 is one. -/
theorem completionLeavesStatusConsistent : Obligations.CompletionLeavesStatusConsistent :=
  ⟨fun _ _ _ h => (exec_ended h).completed,
   fun _ _ hb he hstep => (completionStep_ended (completionStep_of_step hstep hb he)).completed⟩

/-- Settles O31, by the ends of each command. -/
theorem eachCommandRaisesOnlyItsErrors : Obligations.EachCommandRaisesOnlyItsErrors := by
  intro s t
  refine ⟨fun alg codelen h => ?config, fun h => ?b32dec, fun h => ?b32enc, fun h => ?otp, fun h => ?clear⟩
  case config =>
    obtain ⟨-, ht⟩ | ⟨-, -, ht⟩ | ⟨a, -, -, -, ht⟩ := execConfig_cases alg codelen s
    · cases h.symm.trans ht; exact .inr (.inl rfl)
    · cases h.symm.trans ht; exact .inr (.inr rfl)
    · cases h.symm.trans ht; exact .inl rfl
  case b32dec =>
    obtain ⟨-, ht⟩ | ⟨-, -, ht⟩ | ⟨bytes, -, -, -, ht⟩ := execB32dec_cases s
    · cases h.symm.trans ht; exact .inr (.inl rfl)
    · cases h.symm.trans ht; exact .inr (.inr rfl)
    · cases h.symm.trans ht; exact .inl rfl
  case b32enc =>
    obtain ⟨-, ht⟩ | ⟨-, -, ht⟩ := execB32enc_cases s
    · cases h.symm.trans ht; exact .inr rfl
    · cases h.symm.trans ht; exact .inl rfl
  case otp =>
    obtain ⟨-, ht⟩ | ⟨-, -, ht⟩ | ⟨-, -, ht⟩ := execOtp_cases s
    · cases h.symm.trans ht; exact .inr (.inl rfl)
    · cases h.symm.trans ht; exact .inr (.inr rfl)
    · cases h.symm.trans ht; exact .inl rfl
  case clear => cases h; rfl

/-- Settles O33: an error and a result leave every operand alone, and a constructed engine is CONFIG's. -/
theorem commandsButClearKeepTheirOperands : Obligations.CommandsButClearKeepTheirOperands := by
  intro i s t hclear h
  obtain ⟨e, ht⟩ | ⟨bytes, ht, -⟩ | ⟨alg, codelen, a, rfl, -, -, -, ht⟩ | ⟨rfl, -⟩ := exec_cases i s
  · cases h.symm.trans ht
    exact ⟨rfl, rfl, rfl, rfl, fun _ => rfl, fun _ => ⟨rfl, rfl⟩, rfl, rfl, rfl⟩
  · cases h.symm.trans ht
    exact ⟨rfl, rfl, rfl, rfl, fun _ => rfl, fun _ => ⟨rfl, rfl⟩, rfl, rfl, rfl⟩
  · cases h.symm.trans ht
    exact ⟨rfl, rfl, rfl, rfl, fun _ => rfl, fun hother => absurd rfl (hother alg codelen), rfl, rfl, rfl⟩
  · exact absurd rfl hclear

/-- A decoded text is at most 160 bytes (R44). -/
theorem execB32dec_olen {s t : State} (h : execB32dec s = .next t) : t.olen.toNat ≤ 160 := by
  obtain ⟨-, ht⟩ | ⟨-, -, ht⟩ | ⟨bytes, -, -, hlen, ht⟩ := execB32dec_cases s
  · cases h.symm.trans ht; exact Nat.zero_le _
  · cases h.symm.trans ht; exact Nat.zero_le _
  · cases h.symm.trans ht
    exact (delivers_of_fits s (hlen.trans (by decide))).length.le.trans hlen

/-- A code is at most 255 digits (R44). -/
theorem execOtp_olen {s t : State} (h : execOtp s = .next t) : t.olen.toNat ≤ 255 := by
  obtain ⟨-, ht⟩ | ⟨-, -, ht⟩ | ⟨hv, hfits, -⟩ := execOtp_cases s
  · cases h.symm.trans ht; exact Nat.zero_le _
  · cases h.symm.trans ht; exact Nat.zero_le _
  · obtain ⟨u, hu, hdelivers⟩ := execOtp_delivers hv hfits
    cases h.symm.trans hu
    have hcodelen := s.cfg.codelen.isLt
    rw [hdelivers.length, computeCode_length]
    omega

/-- Settles O34: the bounds of OBUF are part of `Ended`, and the two smaller ones are those of the results. -/
theorem resultsFitTheOutputBuffer : Obligations.ResultsFitTheOutputBuffer := by
  intro i s t h
  have hend := exec_ended h
  refine ⟨hend.olenMax, ?b32dec, ?otp, hend.obufWf, hend.obufWithin, hend.obufTail⟩
  case b32dec => rintro rfl; exact execB32dec_olen h
  case otp => rintro rfl; exact execOtp_olen h

end Sys2Proof.Machine
end

section
/-! The family of the encoding: a word is its four fields (R90), a row of the opcode map is selected by them (R92), and
so decoding inverts encoding and the illegal words are those of R94. -/

namespace Sys2Proof

/-! ### A word and its fields (R90) -/

theorem eq_append_fields (w : Word) : w = rsvField w ++ arg1Field w ++ arg0Field w ++ opcField w := by
  rw [rsvField, arg1Field, BitVec.extractLsb'_append_extractLsb'_eq_extractLsb' (by decide),
    arg0Field, BitVec.extractLsb'_append_extractLsb'_eq_extractLsb' (by decide),
    opcField, BitVec.extractLsb'_append_extractLsb'_eq_extractLsb' (by decide)]
  simp

/-- The fields of the encoded word of a command. -/
theorem fields_encode (i : Instr) : Laws.EncodedFields.Statement i := by
  cases i with
  | config alg codelen => exact Laws.EncodedFields.config alg codelen
  | b32dec => exact Laws.EncodedFields.b32dec
  | b32enc => exact Laws.EncodedFields.b32enc
  | otp => exact Laws.EncodedFields.otp
  | clear => exact Laws.EncodedFields.clear

theorem eq_encode_iff (w : Word) (i : Instr) :
    w = encode i ↔ opcField w = i.opc ∧ arg0Field w = i.arg0 ∧ arg1Field w = i.arg1 ∧ rsvField w = 0 := by
  constructor
  · rintro rfl; exact fields_encode i
  · rintro ⟨hopc, harg0, harg1, hrsv⟩
    rw [eq_append_fields w, hopc, harg0, harg1, hrsv, encode]

/-! ### The rows (R92) -/

theorem fields_and (w m : Word) :
    opcField (w &&& m) = opcField w &&& opcField m ∧ arg0Field (w &&& m) = arg0Field w &&& arg0Field m ∧
    arg1Field (w &&& m) = arg1Field w &&& arg1Field m ∧ rsvField (w &&& m) = rsvField w &&& rsvField m :=
  ⟨BitVec.extractLsb'_and, BitVec.extractLsb'_and, BitVec.extractLsb'_and, BitVec.extractLsb'_and⟩

/-- Every row's mask covers OPC and RSV, which are therefore the pattern's, and no pattern sets RSV. -/
theorem fields_of_selects {r : OpRow} {w : Word} (hr : r ∈ opcodeMap) (h : r.selects w = true) :
    opcField w = opcField r.pattern ∧ rsvField w = 0 := by
  have hmask : ∀ r ∈ opcodeMap, opcField r.mask = 0xFF ∧ rsvField r.mask = 0xFF ∧ rsvField r.pattern = 0 := by decide
  obtain ⟨hopc, hrsv, hpat⟩ := hmask r hr
  have hw : w &&& r.mask = r.pattern := beq_iff_eq.1 h
  obtain ⟨hopcAnd, -, -, hrsvAnd⟩ := fields_and w r.mask
  rw [hw, hopc] at hopcAnd
  rw [hw, hrsv, hpat] at hrsvAnd
  exact ⟨(hopcAnd.trans BitVec.and_allOnes).symm, (hrsvAnd.trans BitVec.and_allOnes).symm⟩

/-- A format-N row, whose mask is the whole word, is selected by its pattern alone, the word of its command. -/
theorem eq_encode_of_selects {r : OpRow} {w : Word} (hr : r ∈ opcodeMap) (hmask : r.mask = 0xFFFFFFFF)
    (h : r.selects w = true) : w = encode (r.read w) := by
  have hpattern : ∀ r ∈ opcodeMap, r.pattern = encode (r.read r.pattern) := by decide
  have hw : w &&& r.mask = r.pattern := beq_iff_eq.1 h
  rw [hmask, show (0xFFFFFFFF : Word) = BitVec.allOnes 32 from rfl, BitVec.and_allOnes] at hw
  exact hw ▸ hpattern r hr

/-- The row of CONFIG looks at OPC and RSV alone. -/
theorem config_selected (alg codelen : Byte) : encode (.config alg codelen) &&& 0xFF0000FF = 0x00000001 := by
  obtain ⟨hopc, harg0, harg1, hrsv⟩ := fields_encode (.config alg codelen)
  obtain ⟨hopcAnd, harg0And, harg1And, hrsvAnd⟩ := fields_and (encode (.config alg codelen)) 0xFF0000FF
  refine (eq_encode_iff _ (.config 0 0)).2 ⟨?_, ?_, ?_, ?_⟩
  · rw [hopcAnd, hopc, Instr.opc]; decide
  · rw [harg0And]; exact BitVec.and_zero
  · rw [harg1And]; exact BitVec.and_zero
  · rw [hrsvAnd, hrsv]; decide

/-! ### Decoding and encoding (R95) -/

theorem decode_eq_ok {w : Word} {i : Instr} :
    decode w = .ok i ↔ ∃ r, opcodeMap.find? (fun r => r.selects w) = some r ∧ r.read w = i := by
  rw [decode]
  cases opcodeMap.find? (fun r => r.selects w) <;> simp

theorem decode_encode (i : Instr) : decode (encode i) = .ok i := by
  cases i with
  | config alg codelen =>
    obtain ⟨-, harg0, harg1, -⟩ := fields_encode (.config alg codelen)
    refine decode_eq_ok.2 ⟨_, List.find?_cons_of_pos (beq_iff_eq.2 (config_selected alg codelen)), ?_⟩
    exact congrArg₂ Instr.config harg0 harg1
  | b32dec => decide
  | b32enc => decide
  | otp => decide
  | clear => decide

theorem eq_encode_of_decode {w : Word} {i : Instr} (h : decode w = .ok i) : w = encode i := by
  obtain ⟨r, hfind, rfl⟩ := decode_eq_ok.1 h
  have hselects : r.selects w = true := List.find?_some (p := fun r : OpRow => r.selects w) hfind
  have hr := List.mem_of_find?_eq_some hfind
  obtain ⟨hopc, hrsv⟩ := fields_of_selects hr hselects
  simp only [opcodeMap, List.mem_cons, List.not_mem_nil, or_false] at hr
  obtain rfl | rfl | rfl | rfl | rfl := hr
  · exact (eq_encode_iff w _).2 ⟨hopc, rfl, rfl, hrsv⟩
  · exact eq_encode_of_selects (List.mem_of_find?_eq_some hfind) rfl hselects
  · exact eq_encode_of_selects (List.mem_of_find?_eq_some hfind) rfl hselects
  · exact eq_encode_of_selects (List.mem_of_find?_eq_some hfind) rfl hselects
  · exact eq_encode_of_selects (List.mem_of_find?_eq_some hfind) rfl hselects

theorem decode_eq_ok_iff (w : Word) (i : Instr) : decode w = .ok i ↔ w = encode i :=
  ⟨eq_encode_of_decode, fun h => h ▸ decode_encode i⟩

/-- The legal words, by their fields: a CONFIG with any arguments, or a format-N command with none. -/
theorem exists_decode_iff (w : Word) :
    (∃ i, decode w = .ok i) ↔ rsvField w = 0 ∧ ((opcField w).toNat = 1 ∨
      ((2 ≤ (opcField w).toNat ∧ (opcField w).toNat ≤ 5) ∧ arg0Field w = 0 ∧ arg1Field w = 0)) := by
  simp only [decode_eq_ok_iff, eq_encode_iff]
  constructor
  · rintro ⟨i, hopc, harg0, harg1, hrsv⟩
    refine ⟨hrsv, ?_⟩
    cases i with
    | config alg codelen => exact .inl (by rw [hopc]; rfl)
    | b32dec => exact .inr ⟨by rw [hopc]; decide, harg0, harg1⟩
    | b32enc => exact .inr ⟨by rw [hopc]; decide, harg0, harg1⟩
    | otp => exact .inr ⟨by rw [hopc]; decide, harg0, harg1⟩
    | clear => exact .inr ⟨by rw [hopc]; decide, harg0, harg1⟩
  · rintro ⟨hrsv, hopc | ⟨⟨hmin, hmax⟩, harg0, harg1⟩⟩
    · exact ⟨.config _ _, BitVec.eq_of_toNat_eq hopc, rfl, rfl, hrsv⟩
    · have hopc : opcField w = 2 ∨ opcField w = 3 ∨ opcField w = 4 ∨ opcField w = 5 := by bv_omega
      obtain hopc | hopc | hopc | hopc := hopc
      · exact ⟨.b32dec, hopc, harg0, harg1, hrsv⟩
      · exact ⟨.b32enc, hopc, harg0, harg1, hrsv⟩
      · exact ⟨.otp, hopc, harg0, harg1, hrsv⟩
      · exact ⟨.clear, hopc, harg0, harg1, hrsv⟩

theorem exists_decode_error_iff (w : Word) : (∃ e, decode w = .error e) ↔ ¬∃ i, decode w = .ok i := by
  cases decode w <;> simp

/-! ### The statements -/

/-- Settles O22, in two directions: `eq_encode_of_decode` from the row a word selects, `decode_encode` by command. -/
theorem decodeExactlyInvertsEncode : Obligations.DecodeExactlyInvertsEncode := decode_eq_ok_iff

/-- Settles O23: a selected row's pattern has the word's OPC, and no two rows of the map have the same one. -/
theorem opcodeRowsAreDisjoint : Obligations.OpcodeRowsAreDisjoint := by
  intro w r r' hr hr' hselects hselects'
  have hunique : ∀ r ∈ opcodeMap, ∀ r' ∈ opcodeMap, opcField r.pattern = opcField r'.pattern →
      r.mnemonic = r'.mnemonic := by decide
  exact hunique r hr r' hr'
    ((fields_of_selects hr hselects).1.symm.trans (fields_of_selects hr' hselects').1)

/-- Settles O24: the three cases are the ways to fail `exists_decode_iff`. -/
theorem illegalWordsAreExactlyThose : Obligations.IllegalWordsAreExactlyThose := by
  intro w
  change _ ↔ (opcField w = 0 ∨ 6 ≤ (opcField w).toNat) ∨ rsvField w ≠ 0 ∨
    ((2 ≤ (opcField w).toNat ∧ (opcField w).toNat ≤ 5) ∧ (arg0Field w ≠ 0 ∨ arg1Field w ≠ 0))
  have hzero : opcField w = 0 ↔ (opcField w).toNat = 0 := BitVec.toNat_eq
  rw [exists_decode_error_iff, exists_decode_iff, hzero]
  generalize (opcField w).toNat = opc
  have hrows : (opc = 0 ∨ 6 ≤ opc) ↔ ¬(opc = 1 ∨ (2 ≤ opc ∧ opc ≤ 5)) := by omega
  have hformats : opc = 1 → ¬(2 ≤ opc ∧ opc ≤ 5) := by omega
  rw [hrows]
  tauto

/-- Settles O25: the legal words are encoded ones. -/
theorem writtenOutWordsDecode : Obligations.WrittenOutWordsDecode := by
  refine ⟨decode_encode (.config 0 6), decode_encode (.config 1 8), decode_encode (.config 1 255),
    decode_encode .b32dec, decode_encode .b32enc, decode_encode .otp, decode_encode .clear, ?_⟩
  decide

end Sys2Proof
end

section
/-! The family of the pure functions: the Base32 round trip (R127), the symbols (R111, R112), digests and keys (R141,
R156, R158), the digits of a code (R187, R191 to R193), the verifier's window (R222 to R227) and a generated secret
(R232). -/

namespace Sys2Proof.Machine

/-! ### Base32 (R111, R112, R125 to R127) -/

/-- A bit string made of whole bytes determines them. -/
theorem bitsOf_injective {a b : List Byte} (h : bitsOf a = bitsOf b) : a = b := by
  have hlen : a.length = b.length := by
    have := congrArg List.length h
    rw [bitsOf_length, bitsOf_length] at this
    omega
  have hsplit : slices 8 a.length (bitsOf a) = slices 8 b.length (bitsOf b) := by rw [h, hlen]
  rw [bitsOf, bitsOf, slices_flatMap _ _ fun _ _ => bitsMsb_length _ _,
    slices_flatMap _ _ fun _ _ => bitsMsb_length _ _] at hsplit
  refine List.map_injective_iff.2 (fun x y hxy => ?_) hsplit
  have hnat := congrArg bitsNat hxy
  rw [bitsNat_bitsMsb, bitsNat_bitsMsb, Nat.mod_eq_of_lt x.isLt, Nat.mod_eq_of_lt y.isLt] at hnat
  exact BitVec.eq_of_toNat_eq hnat

/-- The whole bytes of the encoded values' bits are the bytes that were encoded (R127). -/
theorem bytesOfValues_encodedValues (b : List Byte) : bytesOfValues (encodedValues b) = b := by
  have hcount : 5 * symbolCount b.length / 8 = b.length := by
    have := symbolCount_bits b.length
    omega
  apply bitsOf_injective
  rw [bitsOf_bytesOfValues, encodedValues_bits, encodedValues_length, hcount]
  exact List.take_left' (bitsOf_length b)

/-- The padding of an encoded text is one of the legal ones (R115, R126). -/
theorem legalPadCount_symbolCount (k : Nat) : legalPadCount ((8 - symbolCount k % 8) % 8) = true := by
  rw [legalPadCount_iff, symbolCount]
  omega

/-- The value of a byte, by the two ranges of the alphabet (R111). -/
theorem b32val_eq_some_iff (c : Byte) (v : BitVec 5) : b32val c = some v ↔
    (0x41 ≤ c.toNat ∧ c.toNat ≤ 0x5A ∧ v.toNat = c.toNat - 0x41) ∨
    (0x32 ≤ c.toNat ∧ c.toNat ≤ 0x37 ∧ v.toNat = c.toNat - 0x32 + 26) := by
  have hof (n : Nat) (hn : n < 32) : some (BitVec.ofNat 5 n) = some v ↔ v.toNat = n := by
    rw [Option.some_inj, ← BitVec.toNat_inj, BitVec.toNat_ofNat, Nat.mod_eq_of_lt hn, eq_comm]
  rw [b32val]
  split
  case isTrue hletter => rw [hof _ (by omega)]; omega
  case isFalse hletter =>
    split
    case isTrue hdigit => rw [hof _ (by omega)]; omega
    case isFalse hdigit => simp; omega

/-- The symbol of a byte's value is the byte (R112). -/
theorem b32sym_of_b32val {c : Byte} {v : BitVec 5} (h : b32val c = some v) : b32sym v = c := by
  apply BitVec.eq_of_toNat_eq
  obtain ⟨hmin, hmax, hv⟩ | ⟨hmin, hmax, hv⟩ := (b32val_eq_some_iff c v).1 h
  · rw [b32sym, if_pos (by omega), BitVec.toNat_ofNat]; omega
  · rw [b32sym, if_neg (by omega), BitVec.toNat_ofNat]; omega

/-! ### The digits of a code (R191 to R193) -/

/-- A code is the decimal representation of the value's last `n` digits, whatever digits stand before it. -/
theorem foldl_renderCode (n v acc : Nat) :
    (renderCode n v).foldl (fun acc c => acc * 10 + (c.toNat - 0x30)) acc = acc * 10 ^ n + v % 10 ^ n := by
  induction n generalizing acc with
  | zero => simp [renderCode, Nat.mod_one]
  | succ n ih =>
    rw [renderCode_succ, List.foldl_cons, ih, digitByte_toNat, Nat.mod_pow_succ, pow_succ, Nat.add_sub_cancel_left]
    ring

theorem mem_renderCode {n v : Nat} {c : Byte} (h : c ∈ renderCode n v) : 0x30 ≤ c.toNat ∧ c.toNat ≤ 0x39 := by
  obtain ⟨i, -, rfl⟩ := List.mem_map.1 h
  rw [digitByte_toNat]
  omega

/-- In front of the digits of a small value stand zeros (R193). -/
theorem renderCode_zeros {k v : Nat} (hv : v < 10 ^ k) (n : Nat) :
    renderCode (n + k) v = List.replicate n 0x30 ++ renderCode k v := by
  induction n with
  | zero => rw [Nat.zero_add]; rfl
  | succ n ih =>
    have hdigit : v / 10 ^ (n + k) = 0 :=
      Nat.div_eq_of_lt (hv.trans_le (Nat.pow_le_pow_right (by decide) (by omega)))
    rw [Nat.add_right_comm, renderCode_succ, ih, hdigit]
    rfl

/-- From ten digits on, the reduction modulo 10^CODELEN changes nothing (R191). -/
theorem truncateMac_mod {n : Nat} (hn : 10 ≤ n) (mac : List Byte) : truncateMac mac % 10 ^ n = truncateMac mac :=
  Nat.mod_eq_of_lt <| calc
    truncateMac mac < 2 ^ 31 := truncateMac_lt mac
    _ ≤ 10 ^ 10 := by decide
    _ ≤ 10 ^ n := Nat.pow_le_pow_right (by decide) hn

/-! ### The verifier (R222 to R226) -/

theorem mem_windowOffsets {d : Nat} {offset : Int} :
    offset ∈ windowOffsets d ↔ -(d : Int) ≤ offset ∧ offset ≤ d := by
  simp only [windowOffsets, List.bind_eq_flatMap, List.pure_def, List.mem_map, List.mem_flatMap, List.mem_singleton,
    List.mem_range]
  constructor
  · rintro ⟨-, ⟨k, hk, rfl⟩, rfl⟩; omega
  · rintro ⟨hmin, hmax⟩; exact ⟨offset + d, ⟨(offset + d).toNat, by omega, by omega⟩, by omega⟩

/-- The verifier compares the candidate with the code of each time-step of the window. -/
theorem verifyCode_iff (alg : HashAlg) (codelen clock : Nat) (secret candidate : List Byte)
    (discrepancy reference : Nat) :
    verifyCode alg codelen clock secret candidate discrepancy reference = true ↔
      candidate.length = codelen ∧
      ∃ offset : Int, (-(discrepancy : Int) ≤ offset ∧ offset ≤ discrepancy) ∧
        computeCode alg codelen secret (windowStep reference offset) = candidate := by
  rw [verifyCode]
  split
  case isTrue hlen => simp [hlen]
  case isFalse hlen =>
    rw [and_iff_right (not_not.1 hlen)]
    simp only [List.any_eq_true, mem_windowOffsets, constantTimeCompareIsEquality _ _]

/-! ### The generated secret (R231) -/

/-- The values whose symbols the generator writes. -/
def secretValues (random : Nat → Byte) (length : Nat) : List (BitVec 5) :=
  (List.range length).map fun i => (random i &&& 0x1F).setWidth 5

/-- A generated secret is symbols with no padding behind them. -/
theorem secretSymbols_eq (random : Nat → Byte) (length : Nat) :
    ((List.range length).map fun i => secretSymbol (random i)) =
      (secretValues random length).map b32sym ++ List.replicate 0 padChar := by
  rw [List.replicate_zero, List.append_nil, secretValues, List.map_map]
  rfl

/-! ### The statements -/

/-- Settles O42: the encoded text is symbols and legal padding, and its values give the bytes back. -/
theorem encodeThenDecodeIsIdentity : Obligations.EncodeThenDecodeIsIdentity := by
  intro b
  rw [b32encode_eq, b32decode_symbols _ (legalPadCount_symbolCount _), bytesOfValues_encodedValues]

/-- Settles O39: the value map by its ranges, and each map on the other's result. -/
theorem symbolMapsAreInverse : Obligations.SymbolMapsAreInverse :=
  ⟨b32val_eq_some_iff, b32val_b32sym, fun _ _ => b32sym_of_b32val⟩

/-- Settles O58: a generated secret is the symbols of `length` values with no padding, so it decodes to their bytes. -/
theorem generatedSecretDecodes : Obligations.GeneratedSecretDecodes := by
  intro random length secret h
  by_cases hrange : length < 16 ∨ 128 < length
  · exact nomatch (createSecret_rangeError (some random) hrange).symm.trans h
  · cases (createSecret_some random (by omega) (by omega)).symm.trans h
    rw [secretSymbols_eq]
    exact ⟨_, b32decode_symbols (secretValues random length) rfl, by simp [secretValues]⟩

/-- Settles O48: an HMAC is a digest of its hash. -/
theorem digestAndMacLengths : Obligations.DigestAndMacLengths := fun key m =>
  ⟨sha1_length m, sha256_length m, hmac_length .sha1 key m, hmac_length .sha256 key m⟩

/-- Settles O49: the MAC depends on the key through its block key alone. -/
theorem zeroPaddedKeyGivesSameMac : Obligations.ZeroPaddedKeyGivesSameMac := by
  intro alg key msg n h
  rw [hmac, hmacBlockKey_append_zeros alg h, hmac]

/-- Settles O53: the four zero bytes stand in front of the big-endian time-step and add nothing to its number. -/
theorem messageIsTheTimeStep : Obligations.MessageIsTheTimeStep := by
  intro tstep
  refine ⟨by simp [messageOf], rfl, ?_⟩
  rw [messageOf, beNat_append, beNat_tobe32, show beNat [0, 0, 0, 0] = 0 from rfl, Nat.zero_mul, Nat.zero_add]

/-- Settles O51: the digits of `renderCode`, whose value is already below 10^CODELEN. -/
theorem codeIsTheDecimalValue : Obligations.CodeIsTheDecimalValue := by
  intro alg codelen secret tstep
  refine ⟨computeCode_length _ _ _ _, fun c hc => mem_renderCode hc, ?_⟩
  refine (foldl_renderCode _ _ 0).trans ?_
  rw [Nat.zero_mul, Nat.zero_add, Nat.mod_mod]
  rfl

/-- Settles O52: `dbc` has at most ten digits, so the digits in front of the last ten are zeros. -/
theorem longCodesAreZeroExtended : Obligations.LongCodesAreZeroExtended := by
  intro alg codelen secret tstep hlen
  obtain ⟨n, rfl⟩ := Nat.exists_eq_add_of_le' hlen
  simp only [computeCode, truncateMac_mod hlen, truncateMac_mod le_rfl]
  rw [renderCode_zeros ((truncateMac_lt _).trans (by decide)), Nat.add_sub_cancel]

/-- Settles O55: the comparison is equality, and the offsets are those of the window. -/
theorem verifierAcceptsExactlyTheWindow : Obligations.VerifierAcceptsExactlyTheWindow := by
  intro alg codelen clock secret candidate discrepancy reference
  simp only [verifyCode_iff, and_assoc]
  rfl

/-- Settles O56: the window of discrepancy 0 is the time-step itself. -/
theorem verifierAcceptsOwnCode : Obligations.VerifierAcceptsOwnCode := by
  intro alg codelen clock secret now
  refine (verifyCode_iff ..).2 ⟨computeCode_length .., 0, by decide, ?_⟩
  rw [windowStep, Int.add_zero, BitVec.ofInt_natCast]

/-- Settles O60: the defaults are discrepancy 1 and the clock's own time-step (R220, R222). -/
theorem verifierDefaultsAreOneStepAroundNow : Obligations.VerifierDefaultsAreOneStepAroundNow := by
  intro alg codelen clock secret candidate
  have hwindow (offset : Int) :
      (-((1 : Nat) : Int) ≤ offset ∧ offset ≤ (1 : Nat)) ↔ offset = -1 ∨ offset = 0 ∨ offset = 1 := by omega
  simp only [verifyCode_iff, hwindow]
  rfl

end Sys2Proof.Machine
end

section
/-! The family of the runs: a completion step is a function of the block alone (`completionStep_block`), a legal access
keeps the block while BUSY = 1 and the results while BUSY = 0, and WAIT is polls around one completion step
(`wait_completes`). From these follow the statements about schedules (R66, R71, R99, R212, R221) and about the engine's
turn. -/

namespace Sys2Proof.Machine

/-! ### A completion step looks at the block alone -/

section Ends

variable {s : State}

/-- A legal CONFIG on an engine not yet constructed constructs it (R180, R182). -/
theorem execConfig_constructs {alg codelen : Byte} {a : HashAlg} (hv : s.status.cfgv = false)
    (ha : HashAlg.ofCode alg = some a) (hc : 6 ≤ codelen.toNat) :
    execConfig alg codelen s = .next (s.commonClear.construct a codelen).finish := by
  obtain ⟨hv', -⟩ | ⟨-, hnone | hshort, -⟩ | ⟨a', -, ha', -, h⟩ := execConfig_cases alg codelen s
  · exact nomatch hv.symm.trans hv'
  · exact nomatch hnone.symm.trans ha
  · exact absurd hc (not_le.2 hshort)
  · cases ha.symm.trans ha'; exact h

theorem execB32dec_bytes {bytes : List Byte} (hfits : s.ilen.toNat ≤ 256) (hgood : b32decode s.input = .ok bytes) :
    execB32dec s = .next (s.commonClear.deliver bytes).finish := by
  obtain ⟨hlong, -⟩ | ⟨-, hbad, -⟩ | ⟨bytes', -, hgood', -, h⟩ := execB32dec_cases s
  · exact absurd hfits (not_le.2 hlong)
  · exact nomatch hbad.symm.trans hgood
  · cases hgood.symm.trans hgood'; exact h

theorem execB32enc_text (hfits : s.ilen.toNat ≤ 256) :
    execB32enc s = .next (s.commonClear.deliver (b32encode s.input)).finish := by
  obtain ⟨hlong, -⟩ | ⟨-, -, h⟩ := execB32enc_cases s
  · exact absurd hfits (not_le.2 hlong)
  · exact h

end Ends

/-- Which end a command takes, and the result, are settled by the block: the block alone takes the same one. -/
theorem exec_block (i : Instr) (s : State) : ∃ t, exec i s = .next t ∧ exec i s.block = .next t.block := by
  cases i with
  | config alg codelen =>
    obtain ⟨hlocked, hillegal, -⟩ := configOutcomes s.block alg codelen
    obtain ⟨hv, h⟩ | ⟨hv, hbad, h⟩ | ⟨a, hv, ha, hc, h⟩ := execConfig_cases alg codelen s
    · exact ⟨_, h, hlocked hv⟩
    · exact ⟨_, h, hillegal hv (hbad.imp_left ofCode_eq_none.1)⟩
    · exact ⟨_, h, execConfig_constructs (s := s.block) hv ha hc⟩
  | b32dec =>
    obtain ⟨hlengthError, hmalformed, -⟩ := base32DecodeOutcomes s.block
    obtain ⟨hlong, h⟩ | ⟨hfits, hbad, h⟩ | ⟨bytes, hfits, hgood, -, h⟩ := execB32dec_cases s
    · exact ⟨_, h, hlengthError hlong⟩
    · exact ⟨_, h, hmalformed hfits _ hbad⟩
    · exact ⟨_, h, execB32dec_bytes (s := s.block) hfits hgood⟩
  | b32enc =>
    obtain ⟨hlengthError, -⟩ := base32EncodeOutcomes s.block
    obtain ⟨hlong, h⟩ | ⟨hfits, -, h⟩ := execB32enc_cases s
    · exact ⟨_, h, hlengthError hlong⟩
    · exact ⟨_, h, execB32enc_text (s := s.block) hfits⟩
  | otp =>
    obtain ⟨hv, h⟩ | ⟨hv, hlong, h⟩ | ⟨hv, hfits, h⟩ := execOtp_cases s
    · exact ⟨_, h, execOtp_unconfigured (s := s.block) hv⟩
    · exact ⟨_, h, execOtp_tooLong (s := s.block) hv hlong⟩
    · exact ⟨_, h, execOtp_code (s := s.block) hv hfits⟩
  | clear => exact ⟨_, rfl, rfl⟩

theorem completionStep_block (s : State) :
    ∃ t, completionStep s = .next t ∧ completionStep s.block = .next t.block := by
  cases hd : decode s.lcmd with
  | ok i =>
    rw [completionStep_of_decode hd, completionStep_of_decode (s := s.block) hd]
    exact exec_block i s
  | error e => exact ⟨_, completionStep_of_illegal hd, completionStep_of_illegal (s := s.block) hd⟩

/-- Two states with the same block complete to the same block. -/
theorem completionStep_congr {s s' t t' : State} (h : completionStep s = .next t)
    (h' : completionStep s' = .next t') (hblock : s'.block = s.block) : t'.block = t.block := by
  obtain ⟨u, hu, hublock⟩ := completionStep_block s
  obtain ⟨u', hu', hublock'⟩ := completionStep_block s'
  cases h.symm.trans hu
  cases h'.symm.trans hu'
  rw [hblock, hublock] at hublock'
  exact (Host.Outcome.next.inj hublock').symm

/-! ### Legal accesses one after the other -/

section Access

variable {s t : State} {a : Access} {es : List Event}

@[simp] theorem writeWord_schedule (s : State) (off : Nat) (v : Word) : (s.writeWord off v).schedule = s.schedule := by
  cases hb : s.status.busy with
  | true => rw [writeWord_busy hb]
  | false => obtain ⟨-, hw⟩ | ⟨-, hw⟩ := writeWord_idle hb off v <;> simp [hw]

@[simp] theorem writeByte_schedule (s : State) (off : Nat) (v : Byte) : (s.writeByte off v).schedule = s.schedule := by
  obtain ⟨-, hw⟩ | ⟨-, hw⟩ := writeByte_cases s off v <;> rw [hw]

/-- An access the host has goes on to the rest of the schedule (R66). -/
theorem step_of_access (ha : a.wellFormed = true) (hs : s.schedule = .access a :: es) :
    ∃ t, step s = .next t ∧ t.schedule = es := by
  obtain ⟨r, h⟩ | ⟨off, v, -, h⟩ | ⟨off, v, -, h⟩ := hostAccess_wellFormed ha (s.reschedule es)
  · exact ⟨_, (step_of_cons hs).trans h, rfl⟩
  · exact ⟨_, (step_of_cons hs).trans h, by simp⟩
  · exact ⟨_, (step_of_cons hs).trans h, by simp⟩

theorem hostAccess_of_step (hs : s.schedule = .access a :: es) (h : step s = .next t) :
    hostAccess a (s.reschedule es) = .next t :=
  (step_of_cons hs).symm.trans h

/-- While BUSY = 1 no access changes the block (R68). -/
theorem block_of_busy_access (hb : s.status.busy = true) (hs : s.schedule = .access a :: es)
    (h : step s = .next t) : t.block = s.block := by
  obtain ⟨hm, -⟩ | ⟨hm, -⟩ | ⟨-, ht⟩ | ⟨v, -, ht⟩ | ⟨off, v, -, -, ht⟩ | ⟨off, v, -, -, ht⟩ := step_cases h
  · exact absurd hm.engineMoves (by simp [State.engineMoves, hs])
  · exact absurd hm.resets (by simp [State.resets, hs])
  · exact ht
  · rw [ht, writeWord_busy hb]
  · rw [ht, writeWord_busy hb]
  · rw [ht, writeByte_busy hb]

/-- While BUSY = 0 an access that issues no command keeps STATUS and the outputs (R71). -/
theorem outputs_of_idle_access (hb : s.status.busy = false) (hcmd : issuesCommand a = false)
    (hs : s.schedule = .access a :: es) (h : step s = .next t) : t.status = s.status ∧ s.SameOutputs t := by
  obtain ⟨-, hbusy, -⟩ | ⟨hm, -⟩ | ⟨hm, -⟩ | hq := step_status_cases h
  · exact nomatch hb.symm.trans hbusy
  · exact absurd hm.resets (by simp [State.resets, hs])
  · have hissues : s.issues = issuesCommand a := by
      rw [State.issues, hs]; cases a <;> rfl
    exact nomatch hm.issues.symm.trans (hissues.trans hcmd)
  · exact ⟨hq.status, hq.outputs⟩

/-- What every access of a list keeps holds after the list. -/
theorem runsTo_accesses {P : State → Prop} {accesses : List Access} (hwf : ∀ a ∈ accesses, a.wellFormed = true)
    (hstep : ∀ a ∈ accesses, ∀ (s t : State) (es : List Event), P s → s.schedule = .access a :: es →
      step s = .next t → P t)
    (h : P s) (hs : s.schedule = accesses.map Event.access ++ es) :
    ∃ t, s.runsTo accesses.length t ∧ t.schedule = es ∧ P t := by
  induction accesses generalizing s with
  | nil => exact ⟨s, runsTo_zero.2 rfl, hs, h⟩
  | cons a accesses ih =>
    obtain ⟨ha, hwf⟩ := List.forall_mem_cons.1 hwf
    obtain ⟨hstepA, hstep⟩ := List.forall_mem_cons.1 hstep
    obtain ⟨s', hs', hschedule⟩ := step_of_access ha hs
    obtain ⟨t, hrun, ht⟩ := ih hwf hstep (hstepA s s' _ h hs hs') hschedule
    exact ⟨t, runsTo_succ.2 ⟨s', hs', hrun⟩, ht⟩

end Access

/-! ### WAIT (R99) -/

section Wait

variable {s t : State} {polls : Nat} {rest : List Event}

theorem step_of_wait (hs : s.schedule = .wait polls :: rest) : step s = .next (waitTurn polls (s.reschedule rest)) :=
  step_of_cons hs

theorem waitTurn_idle (hb : s.status.busy = false) : waitTurn polls s = s.pollStatus := by
  simp [waitTurn, hb]

theorem waitTurn_busy_zero (hb : s.status.busy = true) : waitTurn 0 s = s.doFirst [.engine, .wait 0] := by
  simp [waitTurn, hb]

theorem waitTurn_busy_succ (hb : s.status.busy = true) :
    waitTurn (polls + 1) s = s.pollStatus.doFirst [.wait polls] := by
  simp [waitTurn, hb]

/-- A poll that reads BUSY = 0 ends WAIT, and it read the current STATUS. -/
theorem wait_idle (hb : s.status.busy = false) (hs : s.schedule = .wait polls :: rest) :
    ∃ u, step s = .next u ∧ u.schedule = rest ∧ u.block = s.block ∧
      u.responses = s.responses ++ [.word 0x004 u.status.word] := by
  rw [step_of_wait hs, waitTurn_idle (s := s.reschedule rest) hb]
  exact ⟨_, rfl, rfl, rfl, rfl⟩

/-- After its busy polls WAIT lets the engine complete the pending command, and one poll more reads BUSY = 0. -/
theorem wait_completes (hb : s.status.busy = true) (hs : s.schedule = .wait polls :: rest)
    (hc : completionStep s = .next t) :
    ∃ (n : Nat) (u : State) (earlier : List Response), n ≤ polls + 3 ∧ s.runsTo n u ∧ u.schedule = rest ∧
      u.block = t.block ∧ u.responses = earlier ++ [.word 0x004 u.status.word] := by
  have hstep := step_of_wait hs
  induction polls generalizing s t with
  | zero =>
    rw [waitTurn_busy_zero (s := s.reschedule rest) hb] at hstep
    obtain ⟨t', ht'⟩ := completionStep_next (s.reschedule (.wait 0 :: rest))
    obtain ⟨hidle, -, hschedule, -⟩ := completionStep_status ht'
    have hengine : step ((s.reschedule rest).doFirst [.engine, .wait 0]) = .next t' :=
      (step_of_engine_busy (s := (s.reschedule rest).doFirst _) hb rfl).trans ht'
    obtain ⟨u, hpoll, hrest, hublock, hresponses⟩ := wait_idle hidle hschedule
    have hrun : s.runsTo 3 u :=
      runsTo_succ.2 ⟨_, hstep, runsTo_succ.2 ⟨_, hengine, runsTo_succ.2 ⟨_, hpoll, runsTo_zero.2 rfl⟩⟩⟩
    exact ⟨3, u, _, le_rfl, hrun, hrest, hublock.trans (completionStep_congr hc ht' rfl), hresponses⟩
  | succ polls ih =>
    rw [waitTurn_busy_succ (s := s.reschedule rest) hb] at hstep
    obtain ⟨t', ht'⟩ := completionStep_next ((s.reschedule rest).pollStatus.doFirst [.wait polls])
    obtain ⟨n, u, earlier, hn, hrun, hrest, hublock, hresponses⟩ :=
      ih (s := (s.reschedule rest).pollStatus.doFirst [.wait polls]) hb rfl ht' (step_of_wait rfl)
    exact ⟨n + 1, u, earlier, by omega, runsTo_succ.2 ⟨_, hstep, hrun⟩, hrest,
      hublock.trans (completionStep_congr hc ht' rfl), hresponses⟩

end Wait

/-! ### READOUT (R99) -/

/-- Reading OBUF bytes of an idle block one after the other returns them in order and keeps the block. -/
theorem runsTo_readBytes {s : State} {rest : List Event} (indices : List Nat) (hb : s.status.busy = false)
    (hin : ∀ i ∈ indices, i < 416)
    (hs : s.schedule = (indices.map fun i => .access (.readByte (0x200 + i))) ++ rest) :
    ∃ t, s.runsTo indices.length t ∧ t.schedule = rest ∧ t.block = s.block ∧
      t.responses = s.responses ++ indices.map fun i => .byte (0x200 + i) (s.obuf.read i) := by
  induction indices generalizing s with
  | nil => exact ⟨s, runsTo_zero.2 rfl, hs, rfl, by simp⟩
  | cons i indices ih =>
    obtain ⟨hi, hin⟩ := List.forall_mem_cons.1 hin
    have hstep := step_of_readByte (by omega) (by omega) hs
    have hbyte : s.byteAt (0x200 + i) = s.obuf.read i := by
      rw [byteAt_obuf_idle hb (by omega) (by omega), Nat.add_sub_cancel_left]
    rw [hbyte] at hstep
    obtain ⟨t, hrun, hrest, hblock, hresponses⟩ := ih (s := (s.reschedule
      ((indices.map fun i => .access (.readByte (0x200 + i))) ++ rest)).respond (.byte (0x200 + i) (s.obuf.read i)))
      hb hin rfl
    refine ⟨t, runsTo_succ.2 ⟨_, hstep, hrun⟩, hrest, hblock, hresponses.trans ?_⟩
    simp

/-- OLEN read from an idle block says how many OBUF bytes to read. -/
theorem readoutTurn_idle {s : State} (hb : s.status.busy = false) :
    readoutTurn s = (s.respond (.word 0x010 (s.olen.setWidth 32))).doFirst
      ((List.range s.olen.toNat).map fun i => .access (.readByte (0x200 + i))) := by
  have hword : s.wordAt (regOffset .olen) = s.olen.setWidth 32 :=
    (wordAt_regOffset s .olen).trans (regValue_olen_idle hb)
  rw [readoutTurn, hword]
  simp [regOffset]

/-! ### The host's sequence (R221) -/

section HostSequence

variable {s : State} {rest : List Event}

/-- A write to a register of an idle block does what R63 says of that register. -/
theorem step_of_writeReg {r : Reg} {v : Word} (hb : s.status.busy = false)
    (hs : s.schedule = .access (.writeWord (regOffset r) v) :: rest) :
    step s = .next ((s.reschedule rest).writeReg v r) := by
  obtain ⟨halign, hoff⟩ : regOffset r % 4 = 0 ∧ regOffset r ≤ 0x0FC := by cases r <;> decide
  rw [step_of_writeWord halign hoff hs, State.writeWord, regAt_regOffset]
  simp [hb]

theorem writeByte_ibuf_idle {i : Nat} (hb : s.status.busy = false) (hi : i < 256) (v : Byte) :
    s.writeByte (0x100 + i) v = { s with ibuf := s.ibuf.write i v } := by
  obtain ⟨-, hw⟩ | ⟨hignored, -⟩ := writeByte_cases s (0x100 + i) v
  · rw [hw, Nat.add_sub_cancel_left]
  · exact absurd ⟨hb, by omega⟩ hignored

/-- LOAD writes its bytes into IBUF of an idle block (R99). -/
theorem runsTo_loadBytes {i : Nat} (bytes : List Byte) (hb : s.status.busy = false) (hfits : i + bytes.length ≤ 256)
    (hs : s.schedule = loadBytes i bytes ++ rest) :
    s.runsTo bytes.length { s with ibuf := s.ibuf.writeBytes i bytes, schedule := rest } := by
  induction bytes generalizing s i with
  | nil => exact runsTo_zero.2 (by rw [← show s.schedule = rest from hs]; rfl)
  | cons b bytes ih =>
    rw [List.length_cons] at hfits
    have hstep := step_of_writeByte (by omega) (by omega) hs
    have hwrite := writeByte_ibuf_idle (s := s.reschedule (loadBytes (i + 1) bytes ++ rest)) hb (by omega : i < 256) b
    have hrun := ih (s := { s with ibuf := s.ibuf.write i b, schedule := loadBytes (i + 1) bytes ++ rest })
      hb (by omega) rfl
    exact runsTo_succ.2 ⟨_, hstep.trans (congrArg _ hwrite), hrun⟩

/-- The block after the host has loaded a secret and a time-step and issued OTP. -/
def State.otpIssued (secret : List Byte) (timeStep : Nat) (s : State) : State :=
  { s with
    ibuf := s.ibuf.writeBytes 0 secret
    ilen := BitVec.ofNat 16 secret.length
    tstepLo := BitVec.ofNat 32 timeStep
    tstepHi := BitVec.ofNat 32 (timeStep / 2 ^ 32)
    lcmd := encode .otp
    status := s.status.accepted }

/-- The moves of the sequence: the bytes, four register writes and WAIT (R99). -/
theorem expand_computeCodeScript (secret : List Byte) (timeStep polls : Nat) :
    expandScript (computeCodeScript secret timeStep polls) = loadBytes 0 secret ++
      [.access (.writeWord (regOffset .ilen) (BitVec.ofNat 32 secret.length)),
       .access (.writeWord (regOffset .tstepLo) (BitVec.ofNat 32 timeStep)),
       .access (.writeWord (regOffset .tstepHi) (BitVec.ofNat 32 (timeStep / 2 ^ 32))),
       .access (.writeWord (regOffset .cmd) (encode .otp)), .wait polls] := by
  have hotp : encode .otp = 0x00000004 := by decide
  simp [expandScript, computeCodeScript, expandLine, issue, hotp]

/-- The moves before WAIT leave `otpIssued`. -/
theorem runsTo_otpIssued {secret : List Byte} {timeStep polls : Nat} (hb : s.status.busy = false)
    (hfits : secret.length ≤ 256)
    (hs : s.schedule = expandScript (computeCodeScript secret timeStep polls) ++ rest) :
    s.runsTo (secret.length + 4) ((s.otpIssued secret timeStep).reschedule (.wait polls :: rest)) := by
  rw [expand_computeCodeScript, List.append_assoc] at hs
  refine runsTo_add (runsTo_loadBytes secret hb (by omega) hs) ?_
  refine runsTo_succ.2 ⟨_, step_of_writeReg hb rfl, ?_⟩
  refine runsTo_succ.2 ⟨_, step_of_writeReg hb rfl, ?_⟩
  refine runsTo_succ.2 ⟨_, step_of_writeReg hb rfl, ?_⟩
  refine runsTo_succ.2 ⟨_, step_of_writeReg hb rfl, runsTo_zero.2 ?_⟩
  simp [State.writeReg, State.otpIssued, State.reschedule, State.accept]

/-- The operands OTP finds are the secret and the time-step. -/
theorem otpIssued_input {secret : List Byte} (hwf : s.ibuf.wf) (hfits : secret.length ≤ 256) (timeStep : Nat) :
    (s.otpIssued secret timeStep).input = secret := by
  have hilen : (BitVec.ofNat 16 secret.length).toNat = secret.length := by
    rw [BitVec.toNat_ofNat]; omega
  change Memory.readBytes _ (BitVec.ofNat 16 secret.length).toNat = secret
  rw [hilen]
  exact Memory.readBytes_writeBytes hwf secret

end HostSequence

/-! ### The statements -/

/-- Settles O15: a bus error is refused, and every other move has a next state. -/
theorem onlyBusErrorsStopTheMachine : Obligations.OnlyBusErrorsStopTheMachine := by
  intro s
  cases hs : s.schedule with
  | nil => exact .inr ⟨by simp, by rw [step_of_nil hs]; exact engineTurn_next s⟩
  | cons e rest =>
    have hstep := step_of_cons hs
    cases e with
    | access a =>
      cases ha : a.wellFormed with
      | true =>
        obtain ⟨t, ht, -⟩ := step_of_access ha hs
        exact .inr ⟨by rintro _ _ ⟨⟩; exact ha, t, ht⟩
      | false =>
        obtain ⟨off, width, href⟩ := hostAccess_busError ha (s.reschedule rest)
        exact .inl ⟨a, rest, off, width, rfl, ha, hstep.trans href⟩
    | engine => exact .inr ⟨by simp, by rw [hstep]; exact engineTurn_next _⟩
    | reset => exact .inr ⟨by simp, _, hstep⟩
    | wait polls => exact .inr ⟨by simp, _, hstep⟩
    | readout => exact .inr ⟨by simp, _, hstep⟩

/-- Settles O18: the accesses leave the block as it was, and the completion step looks at nothing else. -/
theorem resultIndependentOfCompletionTime : Obligations.ResultIndependentOfCompletionTime := by
  intro s accesses hb hwf hs
  obtain ⟨u, hrun, hschedule, hblock⟩ := runsTo_accesses (P := fun u => u.block = s.block) hwf
    (fun a _ u t es hu hus hstep => (block_of_busy_access ((fields_of_block hu).1 ▸ hb) hus hstep).trans hu) rfl hs
  have hbusy : u.status.busy = true := (fields_of_block hblock).1 ▸ hb
  obtain ⟨t, ht⟩ := completionStep_next (u.reschedule [])
  obtain ⟨v, hv⟩ := completionStep_next (s.reschedule [])
  exact ⟨t, v, runsTo_add hrun (runsTo_succ.2 ⟨t, (step_of_engine_busy hbusy hschedule).trans ht, runsTo_zero.2 rfl⟩),
    (step_of_engine_busy (s := s.reschedule [.engine]) hb rfl).trans hv, completionStep_congr hv ht hblock⟩

/-- Settles O19: each access keeps STATUS and the outputs, so all of them do. -/
theorem resultsStayUntilNextCommand : Obligations.ResultsStayUntilNextCommand := by
  intro s accesses rest hb hlegal hs
  obtain ⟨t, hrun, hrest, hstatus, hout⟩ := runsTo_accesses (P := fun u => u.status = s.status ∧ s.SameOutputs u)
    (fun a ha => (hlegal a ha).1)
    (fun a ha u t es ⟨hstatus, hout⟩ hus hstep => by
      obtain ⟨hstatus', hout'⟩ := outputs_of_idle_access (hstatus ▸ hb) (hlegal a ha).2 hus hstep
      exact ⟨hstatus'.trans hstatus, hout.trans hout'⟩)
    ⟨rfl, rfl, rfl, rfl⟩ hs
  exact ⟨t, hrun, hrest, hstatus, hout.cfg, hout.olen, fun i => by rw [hout.obuf]⟩

/-- Settles O20: an idle block answers the first poll, and a busy one completes within the polls. -/
theorem waitEndsWithBusyZero : Obligations.WaitEndsWithBusyZero := by
  intro s polls rest hs
  cases hb : s.status.busy with
  | false =>
    obtain ⟨u, hstep, hrest, hblock, hresponses⟩ := wait_idle hb hs
    exact ⟨1, u, _, by omega, runsTo_succ.2 ⟨u, hstep, runsTo_zero.2 rfl⟩, hrest, (fields_of_block hblock).1 ▸ hb,
      hresponses⟩
  | true =>
    obtain ⟨t, ht⟩ := completionStep_next s
    obtain ⟨n, u, earlier, hn, hrun, hrest, hblock, hresponses⟩ := wait_completes hb hs ht
    exact ⟨n, u, earlier, hn, hrun, hrest, (fields_of_block hblock).1 ▸ (completionStep_status ht).1, hresponses⟩

/-- Settles O21: the first step reads OLEN, and the reads it puts first return the result bytes. -/
theorem readoutReturnsTheResult : Obligations.ReadoutReturnsTheResult := by
  intro s rest hb holen hs
  have hstep : step s = .next (readoutTurn (s.reschedule rest)) := step_of_cons hs
  rw [readoutTurn_idle (s := s.reschedule rest) hb] at hstep
  obtain ⟨t, hrun, hrest, hblock, hresponses⟩ := runsTo_readBytes (List.range s.olen.toNat)
    (s := ((s.reschedule rest).respond _).doFirst _) hb (fun i hi => by have := List.mem_range.1 hi; omega) rfl
  rw [List.length_range] at hrun
  refine ⟨t, runsTo_succ.2 ⟨_, hstep, hrun⟩, hrest, hblock, hresponses.trans ?_⟩
  simp

/-- Settles O59: the host's writes leave OTP's operands, WAIT ends with OTP completed, and OTP delivers the code. -/
theorem hostSequenceComputesTheCode : Obligations.HostSequenceComputesTheCode := by
  intro s secret timeStep polls rest hinv hb hv hfits hs
  have hissued := runsTo_otpIssued hb hfits hs
  have hilen : (s.otpIssued secret timeStep).ilen.toNat ≤ 256 := by
    change (BitVec.ofNat 16 secret.length).toNat ≤ 256
    rw [BitVec.toNat_ofNat]; omega
  obtain ⟨t, ht, hdelivers⟩ := execOtp_delivers
    (s := (s.otpIssued secret timeStep).reschedule (.wait polls :: rest)) hv hilen
  obtain ⟨n, u, -, -, hrun, hrest, hblock, -⟩ := wait_completes
    (s := (s.otpIssued secret timeStep).reschedule (.wait polls :: rest)) rfl rfl
    ((completionStep_of_decode (i := .otp) (decode_encode .otp)).trans ht)
  obtain ⟨hstatus, -, -, holen, -, -, -, -, hobuf⟩ := fields_of_block hblock
  refine ⟨_, u, runsTo_add hissued hrun, hrest, by rw [hstatus, hdelivers.status],
    by rw [hstatus, hdelivers.status], ?_⟩
  have hresult : u.result = t.result := by rw [State.result, State.result, holen, hobuf]
  have htstep : BitVec.ofNat 32 (timeStep % 2 ^ 32) = BitVec.ofNat 32 timeStep := by
    apply BitVec.eq_of_toNat_eq
    rw [BitVec.toNat_ofNat, BitVec.toNat_ofNat, Nat.mod_mod]
  rw [hresult, hdelivers.result, htstep]
  exact congrArg (computeCode s.cfg.alg s.cfg.codelen.toNat · (BitVec.ofNat 32 timeStep))
    (otpIssued_input hinv.ibufWf hfits timeStep)

/-- Settles O26: both forms of the engine's move are the completion step, which the decoder names. -/
theorem engineRunsTheDecodedCommand : Obligations.EngineRunsTheDecodedCommand := fun _ _ hb hd =>
  ⟨fun hs => (step_of_nil_busy hb hs).trans (completionStep_of_decode hd),
   fun _ hs => (step_of_engine_busy hb hs).trans (completionStep_of_decode hd)⟩

/-- Settles O27: the encoded word fits the table's 32 bits, and the decoder reads the command back. -/
theorem placedWordRunsNext : Obligations.PlacedWordRunsNext := by
  intro s i
  have hword : tableWord 32 (encode i).toNat = encode i := by
    rw [tableWord, Nat.mod_eq_of_lt (encode i).isLt, BitVec.ofNat_toNat, BitVec.setWidth_eq]
  rw [State.withFetchWord, hword]
  exact (step_of_engine_busy (s := State.pending (encode i) s) rfl rfl).trans
    (completionStep_of_decode (decode_encode i))

/-- Settles O29: both forms of the engine's move are its turn, which an idle block passes. -/
theorem idleEngineChangesNothing : Obligations.IdleEngineChangesNothing := fun s hb =>
  ⟨fun hs => (step_of_nil hs).trans (engineTurn_idle hb),
   fun rest hs => (step_of_cons hs).trans (engineTurn_idle (s := s.reschedule rest) hb)⟩

end Sys2Proof.Machine
end

section
/-! The family of the register words: the bits of STATUS (R25) and of CFG (R32), each word a sum of fields that do not
overlap. -/

namespace Sys2Proof.Machine

/-- A flag at bit `n` is that bit alone. -/
theorem getLsbD_bitAt {n : Nat} (hn : n < 32) (b : Bool) (i : Nat) :
    (bitAt n b).getLsbD i = (decide (i = n) && b) := by
  cases b with
  | false => simp [bitAt]
  | true =>
    rw [bitAt, Bool.toNat_true, Nat.one_mul, BitVec.getLsbD_ofNat, Nat.testBit_two_pow, Bool.and_true,
      ← Bool.decide_and]
    exact decide_eq_decide.2 (by omega)

/-- Bit by bit, STATUS is one of its flags, a bit of ERRCODE, or 0 (R25). -/
theorem getLsbD_statusWord (st : Status) {i : Nat} (hi : i < 32) : st.word.getLsbD i =
    if i = 0 then st.busy else if i = 1 then st.done else if i = 2 then st.err
    else if i = 16 then st.cfgv else if i < 8 then false else st.errcode.getLsbD (i - 8) := by
  have herrcode : (st.errcode.setWidth 32 <<< 8).getLsbD i = (!decide (i < 8) && st.errcode.getLsbD (i - 8)) := by
    rw [BitVec.getLsbD_shiftLeft, BitVec.getLsbD_setWidth]
    simp [hi, show i - 8 < 32 by omega]
  simp only [Status.word, BitVec.getLsbD_or, herrcode, getLsbD_bitAt (by decide : 0 < 32),
    getLsbD_bitAt (by decide : 1 < 32), getLsbD_bitAt (by decide : 2 < 32), getLsbD_bitAt (by decide : 16 < 32)]
  split_ifs <;> simp_all

/-- The bits that belong to no field read 0 (R25, R39). -/
theorem getLsbD_statusWord_reserved (st : Status) {i : Nat} (hi : i < 32) (h : (3 ≤ i ∧ i < 8) ∨ (12 ≤ i ∧ i ≠ 16)) :
    st.word.getLsbD i = false := by
  rw [getLsbD_statusWord st hi]
  simp (disch := omega) only [if_neg]
  obtain ⟨-, hlow⟩ | ⟨hhigh, -⟩ := h
  · exact if_pos hlow
  · rw [if_neg (by omega), BitVec.getLsbD_of_ge _ _ (by omega)]

/-- Bit by bit, CFG is ALG, CODELEN or 0 (R32). -/
theorem getLsbD_cfgWord (c : Cfg) {i : Nat} (hi : i < 32) : c.word.getLsbD i =
    if i < 8 then c.alg.code.getLsbD i else c.codelen.getLsbD (i - 8) := by
  simp only [Cfg.word, BitVec.getLsbD_or, BitVec.getLsbD_shiftLeft, BitVec.getLsbD_setWidth]
  split
  case isTrue hlow => simp [hlow, hi]
  case isFalse hhigh =>
    have halg : c.alg.code.getLsbD i = false := BitVec.getLsbD_of_ge _ _ (by omega)
    simp [hhigh, hi, halg, show i - 8 < 32 by omega]

/-- A field of a word is read off the word's bits. -/
theorem extractLsb'_eq_of_bits {w : Word} {start len : Nat} {v : BitVec len}
    (h : ∀ i < len, w.getLsbD (start + i) = v.getLsbD i) : w.extractLsb' start len = v :=
  BitVec.eq_of_getLsbD_eq fun i hi => by rw [BitVec.getLsbD_extractLsb', h i hi, decide_eq_true hi, Bool.true_and]

/-! ### The statements -/

/-- Settles O16, bit by bit: each flag at its place, ERRCODE from bit 8 on, and 0 at the reserved bits. -/
theorem statusWordHoldsItsFields : Obligations.StatusWordHoldsItsFields := by
  intro st
  have hreserved {start len : Nat} (h : ∀ i < len, start + i < 32 ∧
      ((3 ≤ start + i ∧ start + i < 8) ∨ (12 ≤ start + i ∧ start + i ≠ 16))) : st.word.extractLsb' start len = 0 :=
    extractLsb'_eq_of_bits fun i hi => by
      rw [getLsbD_statusWord_reserved st (h i hi).1 (h i hi).2]
      exact BitVec.getLsbD_zero.symm
  refine ⟨getLsbD_statusWord st (i := 0) (by decide), getLsbD_statusWord st (i := 1) (by decide),
    getLsbD_statusWord st (i := 2) (by decide), hreserved (by omega), ?errcode, hreserved (by omega),
    getLsbD_statusWord st (i := 16) (by decide), hreserved (by omega)⟩
  case errcode =>
    refine extractLsb'_eq_of_bits fun i hi => ?_
    rw [getLsbD_statusWord st (by omega)]
    simp (disch := omega) only [if_neg, Nat.add_sub_cancel_left]

/-- Settles O17, bit by bit: ALG from bit 0, CODELEN from bit 8 on, and 0 behind either. -/
theorem cfgWordHoldsItsFields : Obligations.CfgWordHoldsItsFields := by
  intro c
  have hcode : c.alg.code = if c.alg = .sha1 then 0 else 1 := by cases c.alg <;> rfl
  rw [← hcode]
  refine ⟨?alg, ?algReserved, ?codelen, ?reserved⟩ <;> refine extractLsb'_eq_of_bits fun i hi => ?_ <;>
    rw [getLsbD_cfgWord c (by omega)]
  case alg => rw [if_pos (by omega), Nat.zero_add]
  case algReserved => rw [if_pos (by omega), BitVec.getLsbD_of_ge _ _ (by omega)]; exact BitVec.getLsbD_zero.symm
  case codelen => rw [if_neg (by omega), Nat.add_sub_cancel_left]
  case reserved => rw [if_neg (by omega), BitVec.getLsbD_of_ge _ _ (by omega)]; exact BitVec.getLsbD_zero.symm

end Sys2Proof.Machine
end
